-- ==== Sys2Proof/Word.lean ====
section
/-! DEFINITION. The two words of the block (spec/00_scope.md R4): the byte and the 16-bit CRC word. Both are
unsigned; there is no signed quantity anywhere in the block. -/

namespace Sys2Proof

/-- A byte, `u8` (R4). -/
abbrev Byte := BitVec 8

/-- A 16-bit word, `u16` (R4): the CRC accumulator and the trailer word. -/
abbrev Word := BitVec 16

end Sys2Proof
end

