-- ==== Sys2Proof/Config.lean ====
section
/-! DEFINITION. What is fixed for one machine (spec/00_scope.md R3, spec/10_state.md R23): the hard-wired
constants, the named parameters, and the constants without a body that stand for what the spec leaves OPEN. -/

namespace Sys2Proof
namespace Config

/-! ### Constants (R23) -/

/-- `MASTER_ADDR`: this system, always the sender on outgoing frames (R23). -/
def masterAddr : Byte := 0x80

/-- `BCAST_ADDR`: the broadcast destination of the polling Get (R23). -/
def bcastAddr : Byte := 0xF0

/-- `IO_TIMEOUT` in seconds (R23, R221). No operation measures it: its expiry is an environment draw (R139). -/
def ioTimeoutSeconds : Nat := 10

/-- The host's staleness threshold in seconds (spec/60_exceptions.md R222). -/
def stalenessSeconds : Nat := 2

/-- DESIGN CHOICE (log 15): the host's clock counts nanoseconds. -/
def ticksPerSecond : Nat := 1000000000

/-- Header length `HDR_LEN` (R3). -/
def headerLen : Nat := 3

/-- Set payload length (R3). -/
def payloadLen : Nat := 4

/-- CRC trailer length (R3). -/
def trailerLen : Nat := 2

/-- Command codes (spec/30_encoding.md R74). -/
def codeAck : Byte := 0x00
/-- Command code of a NAck (R74). -/
def codeNack : Byte := 0x01
/-- Command code of a Set (R74). -/
def codeSet : Byte := 0x03
/-- Command code of a Get (R74). -/
def codeGet : Byte := 0x04

/-- The fixed nominal resistances in ohms, in the source's order (spec/44_host_environment.md R190). -/
def nominalOhms : List Nat := [1000, 2000, 5100, 6800, 12000, 18000, 15000, 51000]

/-! ### Parameters -/

/-- `EXTRACTS_PER_ARRIVAL` (R3, R132): one extraction per arrival, or until `EXTRACT` answers `None`. -/
inductive ExtractMode where
  | once
  | untilNone
deriving DecidableEq, Repr

/-- `OHM_ROUND` (R3, R191). -/
inductive OhmRound where
  | trunc
  | nearest
deriving DecidableEq, Repr

/-- The named parameters of R3. They stand in `State.params` and no step changes them, so that a statement about
every state is a statement about every choice of them (log 7). -/
structure Params where
  /-- `EXTRACTS_PER_ARRIVAL` (R132, D6). -/
  extracts : ExtractMode
  /-- `DEST_FILTER` (R170, D11). -/
  destFilter : Bool
  /-- Whether the oracle `decode_fault` may fire at all (R138, D13). -/
  decodeFault : Bool
  /-- `OHM_ROUND` (R191, D24). -/
  ohmRound : OhmRound
  /-- U14: auto-restore compares byte codes instead of ohms (spec/93_implementation_defined.md U14, R188). -/
  restoreInCodes : Bool
  /-- `SET_DIFFICULTY` (R187, D25). -/
  setDifficulty : Byte
  /-- `SET_STATUS` (R187, D25). -/
  setStatus : Byte
  /-- `INIT_OHMS` (spec/70_reset_and_hazards.md R241, D26). -/
  initOhms : Nat
  /-- `INIT_JUMPER` (R241, D26). -/
  initJumper : Byte
  /-- `autoRestoreEnabled` (R188). -/
  autoRestore : Bool
  /-- `AUTO_REPAIR_THRESHOLD` in ohms (R188). -/
  repairThreshold : Nat
  /-- `UNIT_ADDRS`, in the order in which the host registers them (R3, R243). -/
  unitAddrs : List Byte
  /-- `POLL_PERIOD`, the period of the host's poll tick, in ticks of the host's clock (R3, D22). No operation measures
  it: a `pollOnce` may come at any point of the schedule (log 32). -/
  pollPeriod : Nat
  /-- The persistence collaborator is the no-op implementation of R196. -/
  noopPersistence : Bool
  /-- U6: `performPendingWork` writes the store although its `SEND` faulted. -/
  storeOnFault : Bool
  /-- U6: `performPendingWork` sets the pending items again when its `SEND` faulted. -/
  restoreOnFault : Bool
  /-- U5: after a fault of the Set's `SEND` the poll agent goes on to the broadcast Get of the same tick. -/
  broadcastAfterFault : Bool
deriving DecidableEq, Repr

/-! ### What the spec leaves OPEN: constants without a body (log 6) -/

/-- OPEN `SET_DIFFICULTY` (D25): no default is claimed. -/
opaque setDifficulty : Byte
/-- OPEN `SET_STATUS` (D25): no default is claimed. -/
opaque setStatus : Byte
/-- OPEN `INIT_OHMS` (D26). -/
opaque initOhms : Nat
/-- OPEN `INIT_JUMPER` (D26). -/
opaque initJumper : Byte
/-- OPEN `autoRestoreEnabled` (R188: a configuration whose value D00 does not give). -/
opaque autoRestore : Bool
/-- OPEN `AUTO_REPAIR_THRESHOLD` (R188). -/
opaque repairThreshold : Nat
/-- OPEN `UNIT_ADDRS` (D19). -/
opaque unitAddrs : List Byte
/-- OPEN `POLL_PERIOD` (D22). -/
opaque pollPeriod : Nat
/-- OPEN: which persistence collaborator is attached (R196). -/
opaque noopPersistence : Bool

/-- The parameters at reset: the values R3 gives, and the body-less constants for the OPEN ones (log 6). -/
def params : Params where
  extracts := .once
  destFilter := false
  decodeFault := false
  ohmRound := .trunc
  restoreInCodes := false
  setDifficulty := setDifficulty
  setStatus := setStatus
  initOhms := initOhms
  initJumper := initJumper
  autoRestore := autoRestore
  repairThreshold := repairThreshold
  unitAddrs := unitAddrs
  pollPeriod := pollPeriod
  noopPersistence := noopPersistence
  storeOnFault := false
  restoreOnFault := false
  broadcastAfterFault := false

/-! ### Free values -/

/-- FREE (U7, log 14): whether the unit at this address is Online when exactly 2 seconds have elapsed at this
reading of the clock. -/
opaque onlineAtThreshold : Byte → Nat → Bool

/-- FREE (log 16): `OHM_ROUND = nearest` on a tie; true rounds up. The spec states no rule for a tie. -/
opaque roundTieUp : Nat → Bool

/-- FREE (log 16): the byte for a resistance that `OHM_ROUND = nearest` rounds to 256, which is no byte. -/
opaque ohmCodeOverflow : Nat → Byte

end Config
end Sys2Proof
end

