-- ==== Sys2Proof/Syntax.lean ====
section
/-! DEFINITION. Command frames as syntax (spec/30_encoding.md, spec/10_state.md R14): the five rows of
spec/opcode_table.json, and the Frame record that `FR` and `DELIVQ` hold. -/

namespace Sys2Proof

/-- One constructor per row of spec/opcode_table.json; operands in the order of R80. -/
inductive Instr where
  /-- `ACK dest, sender`, code 0x00, format H (R161). -/
  | ack (dest sender : Byte)
  /-- `NACK dest, sender`, code 0x01, format H (R162). -/
  | nack (dest sender : Byte)
  /-- `SET dest, sender, analog, digit, difficulty, status`, code 0x03, format S (R163). -/
  | set (dest sender analog digit difficulty status : Byte)
  /-- `GET dest, sender`, code 0x04, format H (R164). -/
  | get (dest sender : Byte)
  /-- `UNKNOWN(code) dest, sender`, any other code, format H (R165). -/
  | unknown (code dest sender : Byte)
deriving DecidableEq, Repr

/-- The kind of a frame, a function of its code byte (R14, R74). -/
inductive Kind where
  | ack
  | nack
  | set
  | get
  | unknown
deriving DecidableEq, Repr

/-- The four payload bytes of a Set frame (R72). `analog` is the jumper pattern and `digit` the resistor code
(spec/90_conflicts.md C8). -/
structure Payload where
  analog : Byte
  digit : Byte
  difficulty : Byte
  status : Byte
deriving DecidableEq, Repr

/-- A Frame record (R14). The kind is not stored: it is a function of `code` (R74). -/
structure Frame where
  dest : Byte
  sender : Byte
  code : Byte
  /-- Absent, not zero, on a non-Set frame (R14, D3). -/
  payload : Option Payload
deriving DecidableEq, Repr

end Sys2Proof
end

