-- ==== Sys2Proof/Machine/State.lean ====
section
/-! DEFINITION. The state of the RC block (spec/10_state.md R10), of its host (spec/44_host_environment.md), and the
model's own fields; the faults, the refusals, the operations the agents can run; the state after reset. -/

namespace Sys2Proof
namespace Machine

/-! ### Agents and arbiters -/

/-- The agents (spec/60_exceptions.md R225). `clock` and `supervisor` are the model's own (log 15, log 29). -/
inductive Agent where
  /-- The serial link and the units on it. -/
  | line
  /-- An arrival agent, one per served notification. -/
  | arrival (id : Nat)
  /-- The poll/dispatch agent. -/
  | poll
  /-- Any other caller of `SEND`. -/
  | sender (id : Nat)
  /-- The store's flush agent. -/
  | flush
  /-- The host's clock. -/
  | clock
  /-- The layer that may recreate the Transport (R212, R240). -/
  | supervisor
deriving DecidableEq, Repr

/-- The two arbiters (R19, R20). -/
inductive Lock where
  | rx
  | port
deriving DecidableEq, Repr

/-! ### Faults of the block, its events -/

/-- Where an `IoTimeout` was raised (R212). -/
inductive IoWhere where
  | atOpen
  | atRead
  | atWrite
deriving DecidableEq, Repr

/-- A fault record (R24, R210): the fault's name with what R210 says is recorded. D00 gives no numeric codes (D16). -/
inductive FaultRecord where
  /-- `SEND` found `PORT_OUT` not empty; the frame not sent (R211). -/
  | writeWhileBusy (f : Frame)
  /-- The port did not complete within `IO_TIMEOUT` (R212). -/
  | ioTimeout (site : IoWhere)
  /-- `REGISTER` of an address already in `CTRL_MAP` (R214). -/
  | duplicateAddress (a : Byte)
deriving DecidableEq, Repr

/-- The operations of R7 that can raise a fault. -/
inductive Raiser where
  | send
  | rxArrive
  | openPort
  | register
deriving DecidableEq, Repr

/-- An event in `LOG` (R27). -/
inductive Event where
  /-- A decode error was absorbed (R138, R213); `info` is the draw's token (log 31). -/
  | decodeError (info : Nat)
  /-- A frame whose sender has no controller was discarded (R169). -/
  | unrouted (f : Frame)
deriving DecidableEq, Repr

/-- What an operation returns to its caller (R7, R219). -/
inductive Return where
  | ok
  | raised (r : FaultRecord)
deriving DecidableEq, Repr

/-! ### The host's data -/

/-- `UnitTarget` (R199). -/
structure UnitTarget where
  address : Byte
  resistorByte : Byte
  jumperByte : Byte
deriving DecidableEq, Repr

/-- A unit controller, the handler that `CTRL_MAP` holds (R181). -/
structure Controller where
  address : Byte
  /-- The payload of the last Set received. -/
  lastStatus : Option Payload
  lastUpdated : Option Nat
  everConnected : Bool
  needsFreshTarget : Bool
  /-- none: not requested; `some none`: requested; `some (some b)`: requested with the explicit byte `b`. -/
  jumperBreak : Option (Option Byte)
  resistorBreak : Bool
  pendingAutoRestore : Option Nat
  requiredOhms : Nat
  jumperTarget : Byte
deriving DecidableEq, Repr

/-- A flush in progress (R195): the addresses of the snapshot still to save, and the addresses set again since the
snapshot was taken. -/
structure Flush where
  todo : List Byte
  setAgain : List Byte
deriving DecidableEq, Repr

/-- The host's log (R210: `PersistFailure` is recorded there). -/
inductive HostEvent where
  /-- A save failed (R195, R214). DESIGN CHOICE (log 43): the entry holds the address. -/
  | persistFailure (a : Byte)
deriving DecidableEq, Repr

/-- Where the poll agent stands in `pollOnce` (R198): at its beginning, or between the Set and the broadcast Get. -/
inductive PollPhase where
  | idle
  | broadcast
deriving DecidableEq, Repr

/-- The host's state beside the controllers (R194 to R198, R222). -/
structure HostSide where
  /-- UnitStore's in-memory mapping (R194), addresses strictly rising. -/
  store : List (Byte × UnitTarget)
  /-- The addresses dirty since the last flush (R194), strictly rising. -/
  dirty : List Byte
  /-- The flush in progress (R195). -/
  flush : Option Flush
  /-- What the persistence collaborator holds (R196), addresses strictly rising. -/
  saved : List (Byte × UnitTarget)
  /-- The host's clock (R222), in ticks of Config. -/
  now : Nat
  /-- The host's log. -/
  log : List HostEvent
  /-- Progress of `pollOnce` (R198). -/
  poll : PollPhase
deriving DecidableEq, Repr

/-! ### The operations on the agenda -/

/-- The draw of `decode_fault` in one `RX_ARRIVE` (R138): it fires after `pushed` frames of this arrival have been
pushed, and `info` is what is logged. -/
structure DecodeDraw where
  pushed : Nat
  info : Nat
deriving DecidableEq, Repr

/-- The environment's draws of one `RX_ARRIVE` (R132). -/
structure ArriveDraw where
  /-- `io_timeout_fault` fires at the raw read (R133). -/
  readTimeout : Bool := false
  /-- `decode_fault` fires (R138); honoured only where `params.decodeFault` says the oracle may fire (log 11). -/
  decodeFault : Option DecodeDraw := none
deriving DecidableEq, Repr

/-- The environment's draws of one step of `pollOnce` (R187, R189, R190, R196; log 17). -/
structure PollDraw where
  /-- Bytes drawn for the jumper pattern of a synthesized default target (R196; log 42). -/
  target : List Byte := []
  /-- Bytes drawn by `generateJumper` (R189). -/
  jumper : List Byte := []
  /-- Resistances drawn by `generateResistor` (R190). -/
  resistor : List Nat := []
  /-- `io_timeout_fault` at the raw write, with the length of what had reached `PORT_OUT` (U4). -/
  write : Option Nat := none
deriving DecidableEq, Repr

/-- What an operator may ask of a controller (R181: the pending flags; log 19). -/
inductive Request where
  | freshTarget
  | jumperBreak (explicit : Option Byte)
  | resistorBreak
deriving DecidableEq, Repr

/-- An operation an agent is about to run (R7, R225), with its operands and the environment's draws (R28). -/
inductive Action where
  /-- `LINE_DELIVER(s)`: a non-empty sequence, its first byte and the others (R131). -/
  | lineDeliver (first : Byte) (others : List Byte)
  /-- `LINE_DRAIN(k)` (R136). -/
  | lineDrain (k : Nat)
  /-- `RX_ARRIVE` (R132). -/
  | rxArrive (id : Nat) (draw : ArriveDraw)
  /-- `SEND(f)`; `timeout` draws an `IoTimeout` at the raw write, with the length of what had reached `PORT_OUT`
  (R134, R135, U4). -/
  | send (caller : Agent) (f : Frame) (timeout : Option Nat)
  /-- `DISPATCH` (R166). -/
  | dispatch (caller : Agent)
  /-- `REGISTER(a, h)`, `h` a new controller (R167, R241; log 36). -/
  | register (caller : Agent) (a : Byte)
  /-- `UNREGISTER(a)` (R168). -/
  | unregister (caller : Agent) (a : Byte)
  /-- `OPEN_PORT` (R242); `timeout` draws the `IoTimeout`. -/
  | openPort (timeout : Bool)
  /-- Reset: the Transport and the Bus are created anew (R240). -/
  | reset
  /-- The next step of `pollOnce` (R198). -/
  | poll (caller : Agent) (draw : PollDraw)
  /-- An operator's request to the controller of `a` (log 19). -/
  | request (a : Byte) (r : Request)
  /-- `UnitStore.set(t.address, t)` by an operator (R194, R199; log 19). -/
  | storeSet (t : UnitTarget)
  /-- Create the store and load all rows into its map (R196, R243 step 1). -/
  | loadAll
  /-- The next step of the flush worker; `ok` draws whether the save succeeds (R195). -/
  | flush (ok : Bool)
  /-- The host's clock advances (R222; log 15). -/
  | tick (d : Nat)
deriving DecidableEq, Repr

/-- Which operation hands the current frame to `exec` (log 3, log 4). -/
inductive Stage where
  /-- `RX_ARRIVE`: the frame stands at the head of `RXBUF`. Also the value between steps. -/
  | receive
  /-- `DISPATCH`: the frame has been popped from `DELIVQ`. -/
  | dispatch
  /-- `SEND` by `caller`, with the draw of the raw write. -/
  | send (caller : Agent) (timeout : Option Nat)
deriving DecidableEq, Repr

/-! ### State -/

/-- The state of the machine. The first twelve fields are the registers of R10. -/
structure State where
  /-- `RXBUF` (R11). -/
  rxBuf : List Byte
  /-- `PORT_IN` (R12). -/
  portIn : List Byte
  /-- `PORT_OUT` (R13). -/
  portOut : List Byte
  /-- `FR` (R14). -/
  fr : Option Frame
  /-- `RXLOCK` (R19). -/
  rxLock : Option Agent
  /-- `PORTLOCK` (R20). -/
  portLock : Option Agent
  /-- `CTRL_MAP`, in insertion order (R21). -/
  ctrlMap : List (Byte × Controller)
  /-- `DELIVQ`, oldest first (R22). -/
  delivQ : List Frame
  /-- `ARRIVALS` (R25). -/
  arrivals : Nat
  /-- `FAULT`, a set: no record twice (R24). -/
  faults : List FaultRecord
  /-- `LOG` (R27). -/
  log : List Event
  /-- `PORT_OPEN` (R29). -/
  portOpen : Bool
  /-- The host (R180). -/
  host : HostSide
  /-- MODEL's own: the parameters of R3 (log 7). -/
  params : Config.Params
  /-- MODEL's own: the operations the agents are about to run (log 1). -/
  agenda : List Action
  /-- MODEL's own: the operation that hands the current frame to `exec` (log 3). -/
  stage : Stage
  /-- MODEL's own: what the last operation returned to its caller (log 12). -/
  ret : Option Return
  /-- MODEL's own: `wire_out` of the last `LINE_DRAIN` (R136; log 28). -/
  wireOut : List Byte
deriving DecidableEq, Repr

/-! ### How a step can stop -/

/-- The machine stops. A fault of the block (R210) is no stop: it is a next state with a record in `FAULT`. -/
inductive Fault where
  /-- Raised by `step`: `FAULT` holds an `IoTimeout` and no reset is on the agenda. Nothing resumes until a reset
  (R212, R220). Safe: no claim continues past it. -/
  | awaitingReset
deriving DecidableEq, Repr

/-- A call the spec gives no meaning (R215). Each is safe: nothing can be proved of a run that makes one. -/
inductive Refusal where
  /-- Raised by `exec`: an instruction that has no meaning yet. Safe. -/
  | notModelled (mnemonic : String)
  /-- R215 (a): `SEND` or `ENCODE` of an ill-formed Frame record. Safe. -/
  | illFormedFrame
  /-- R215 (b): `SEND` of a frame whose sender is not 0x80. Safe. -/
  | senderNotMaster
  /-- R215 (c): `SEND` or `RX_ARRIVE` while `PORT_OPEN` is false. Safe. -/
  | portClosed
  /-- R215 (d): `REGISTER` of address 0x80 or 0xF0. Safe. -/
  | reservedAddress
  /-- R215 (e): a handler call, `REGISTER`, `UNREGISTER` or `pollOnce` by another agent than the poll/dispatch
  agent. Safe. -/
  | wrongAgent
  /-- R215 (f): `DropFront(B, n)` with `n > len(B)`. Safe. -/
  | dropPastEnd
deriving DecidableEq, Repr

/-- The three outcomes of a step of this machine. -/
abbrev Out := Host.Outcome State Fault Refusal

/-! ### Reset -/

/-- The host before it has done anything (log 33). -/
def HostSide.reset : HostSide where
  store := []
  dirty := []
  flush := none
  saved := []
  now := 0
  log := []
  poll := .idle

/-- The machine right after reset (spec/70_reset_and_hazards.md R240); the model's own fields as log 33 says. -/
def State.reset : State where
  rxBuf := []
  portIn := []
  portOut := []
  fr := none
  rxLock := none
  portLock := none
  ctrlMap := []
  delivQ := []
  arrivals := 0
  faults := []
  log := []
  portOpen := false
  host := .reset
  params := Config.params
  agenda := []
  stage := .receive
  ret := none
  wireOut := []

end Machine
end Sys2Proof
end

