-- ==== Sys2Proof/Machine/Tables.lean ====
section
/-! DEFINITION. Tables keyed by a bus address: `CTRL_MAP` in insertion order (spec/10_state.md R21), the store's
map and the dirty set with addresses strictly rising, so that equal tables are equal lists
(spec/44_host_environment.md R194). -/

namespace Sys2Proof
namespace Machine

variable {α : Type}

/-- The value at a key. -/
def mapGet : List (Byte × α) → Byte → Option α
  | [], _ => none
  | (a, v) :: m, k => if a = k then some v else mapGet m k

/-- Change the value at a key; nothing happens where the key is absent. -/
def mapModify (m : List (Byte × α)) (k : Byte) (f : α → α) : List (Byte × α) :=
  m.map fun e => if e.1 = k then (e.1, f e.2) else e

/-- Remove a key; the order of the others is kept (R168). -/
def mapErase (m : List (Byte × α)) (k : Byte) : List (Byte × α) :=
  m.filter fun e => e.1 != k

/-- Set a key in a table whose addresses strictly rise. -/
def mapSet : List (Byte × α) → Byte → α → List (Byte × α)
  | [], k, v => [(k, v)]
  | (a, w) :: m, k, v =>
    if k.toNat < a.toNat then (k, v) :: (a, w) :: m
    else if k = a then (k, v) :: m
    else (a, w) :: mapSet m k v

/-- Put an address into a set whose addresses strictly rise. -/
def addrInsert : List Byte → Byte → List Byte
  | [], k => [k]
  | a :: l, k =>
    if k.toNat < a.toNat then k :: a :: l
    else if k = a then a :: l
    else a :: addrInsert l k

/-- Take an address out of a set. -/
def addrErase (l : List Byte) (k : Byte) : List Byte := l.filter (· != k)

end Machine
end Sys2Proof
end

