-- ==== Sys2Proof/Machine/Store.lean ====
section
/-! DEFINITION. UnitStore and its flush worker (spec/44_host_environment.md R194 to R196). -/

namespace Sys2Proof
namespace Machine

/-- `UnitStore.set(t.address, t)`: immediately visible, the address dirty (R194). A flush in progress sees that the
address was set again (R195). -/
def storeSet (t : UnitTarget) (h : HostSide) : HostSide :=
  { h with
    store := mapSet h.store t.address t
    dirty := addrInsert h.dirty t.address
    flush := h.flush.map fun fl => { fl with setAgain := addrInsert fl.setAgain t.address } }

/-- Create the store and load every row the persistence collaborator holds; the no-op collaborator holds none
(R196, R243 step 1). -/
def loadAll (p : Config.Params) (h : HostSide) : HostSide :=
  { h with store := if p.noopPersistence then [] else h.saved, dirty := [], flush := none }

/-- What `save(address, resistorByte, jumperByte)` leaves with the collaborator (R196). -/
def saveRow (p : Config.Params) (h : HostSide) (a : Byte) : List (Byte × UnitTarget) :=
  if p.noopPersistence then h.saved
  else match mapGet h.store a with
    | some t => mapSet h.saved a t
    | none => h.saved

/-- The flush goes on with the rest of its snapshot, and ends with it (R195). -/
def flushRest (fl : Flush) (rest : List Byte) : Option Flush :=
  match rest with
  | [] => none
  | _ :: _ => some { fl with todo := rest }

/-- The next step of the flush worker (R195, spec/90_conflicts.md C12). With no flush in progress it takes a
snapshot of the dirty set; there is no step while nothing is dirty. Else it saves the next address of the snapshot
with the value the map holds then: on success the address leaves the dirty set unless it was set again since the
snapshot; on failure the failure is logged and the address stays dirty. DESIGN CHOICE: the snapshot is saved in
rising address order (log 41), and the logged entry holds the address (log 43). -/
def flushStep (p : Config.Params) (ok : Bool) (h : HostSide) : Option HostSide :=
  match h.flush with
  | none => if h.dirty = [] then none else some { h with flush := some ⟨h.dirty, []⟩ }
  | some fl =>
    match fl.todo with
    | [] => some { h with flush := none }
    | a :: rest =>
      if ok then
        some
          { h with
            saved := saveRow p h a
            dirty := if fl.setAgain.contains a then h.dirty else addrErase h.dirty a
            flush := flushRest fl rest }
      else some { h with log := h.log ++ [.persistFailure a], flush := flushRest fl rest }

end Machine
end Sys2Proof
end

