-- ==== Sys2Proof/Machine/Operands.lean ====
section
/-! DEFINITION. The operand forms: how bytes are read from and written to a buffer (spec/00_scope.md R6,
spec/43_command_dispatch.md R174), and the two classes of bus addresses (spec/20_memory.md R49). A buffer is a
list of bytes, its head first (R5). -/

namespace Sys2Proof

/-- The byte at a constant offset from the head: the block's one addressing mode (R174). Offsets past the end are
never read by the rules. -/
def byteAt (b : List Byte) (off : Nat) : Byte := b.getD off 0

/-- `MemRead(addr, n)`: defined only when `addr + n <= len(B)`, never changes the buffer (R6). -/
def memRead (b : List Byte) (addr n : Nat) : Option (List Byte) :=
  if addr + n ≤ b.length then some ((b.drop addr).take n) else none

/-- `MemWrite(addr, n, v)` on an encode buffer of fixed size (R6). -/
def memWrite (out : List Byte) (addr : Nat) (v : List Byte) : List Byte :=
  out.take addr ++ v ++ out.drop (addr + v.length)

/-- `Append(B, s)` (R6). -/
def append (b s : List Byte) : List Byte := b ++ s

/-- `DropFront(B, n)`: requires `n <= len(B)` (R6). -/
def dropFront (b : List Byte) (n : Nat) : Option (List Byte) :=
  if n ≤ b.length then some (b.drop n) else none

/-- The two addresses reserved by meaning: the master's and the broadcast address (R49, R77). -/
def isReserved (a : Byte) : Bool := a == Config.masterAddr || a == Config.bcastAddr

/-- `UNIT_ADDRS` as the host registers it: without the reserved addresses and without repeats (R3). -/
def unitRange (p : Config.Params) : List Byte :=
  (p.unitAddrs.filter fun a => !isReserved a).eraseDups

end Sys2Proof
end

