-- ==== Sys2Proof/WellFormed.lean ====
section
/-! DEFINITION. Which instructions and which Frame records are well-formed (spec/10_state.md R14,
spec/30_encoding.md R74). -/

namespace Sys2Proof

/-- The code bytes that decode to Unknown: every byte but 0x00, 0x01, 0x03, 0x04 (R74, R165). -/
def isUnknownCode (c : Byte) : Bool :=
  c != Config.codeAck && c != Config.codeNack && c != Config.codeSet && c != Config.codeGet

/-- The one check on an instruction: the code of an `UNKNOWN` is one of the 252 that no other row selects (R79). -/
def Instr.wf : Instr → Bool
  | .ack _ _ => true
  | .nack _ _ => true
  | .set _ _ _ _ _ _ => true
  | .get _ _ => true
  | .unknown code _ _ => isUnknownCode code

/-- A Frame record is well-formed when its payload is present exactly when its code is 3 (R14). -/
def Frame.wf (f : Frame) : Bool := f.payload.isSome == (f.code == Config.codeSet)

end Sys2Proof
end

