-- ==== Sys2Proof/Decode.lean ====
section
/-! DEFINITION. The frame codec (spec/30_encoding.md, spec/41_frame_codec.md): the decoder of the head of a byte
sequence, `EXTRACT` with its resynchronisation, the correspondence of instructions and Frame records, and the
encoder. -/

namespace Sys2Proof

/-! ### Kind, length, fields -/

/-- `kind_of`, all 8 bits of the command byte compared (R74). -/
def kindOf (c : Byte) : Kind :=
  if c = Config.codeAck then .ack
  else if c = Config.codeNack then .nack
  else if c = Config.codeSet then .set
  else if c = Config.codeGet then .get
  else .unknown

/-- The kind of a Frame record is the kind of its code (R14). -/
def Frame.kind (f : Frame) : Kind := kindOf f.code

/-- `flen(c)`: header and payload, without the trailer (R73, R110). -/
def flen (c : Byte) : Nat :=
  if c = Config.codeSet then Config.headerLen + Config.payloadLen else Config.headerLen

/-- `FIELDS(w)` (R112). -/
def fields (w : List Byte) : Frame where
  dest := byteAt w 0
  sender := byteAt w 1
  code := byteAt w 2
  payload :=
    if byteAt w 2 = Config.codeSet then some ⟨byteAt w 3, byteAt w 4, byteAt w 5, byteAt w 6⟩ else none

/-- The instruction whose header and payload are `w` (R79, R112). -/
def instrOf (w : List Byte) : Instr :=
  match kindOf (byteAt w 2) with
  | .ack => .ack (byteAt w 0) (byteAt w 1)
  | .nack => .nack (byteAt w 0) (byteAt w 1)
  | .set => .set (byteAt w 0) (byteAt w 1) (byteAt w 3) (byteAt w 4) (byteAt w 5) (byteAt w 6)
  | .get => .get (byteAt w 0) (byteAt w 1)
  | .unknown => .unknown (byteAt w 2) (byteAt w 0) (byteAt w 1)

/-! ### The decoder -/

/-- Why the head of a byte sequence is no frame, in the order of the tests of R113 (R218). -/
inductive DecodeReject where
  /-- Fewer than 3 bytes: the length cannot be told (R113 step 1). -/
  | tooShort
  /-- Fewer bytes than the wire length (R113 step 3). -/
  | incomplete
  /-- The trailer word differs from the CRC of header and payload (R113 step 5). -/
  | crcMismatch
deriving DecidableEq, Repr

/-- The decoder: the frame at the head of `b` and the bytes behind it, or the reason there is none (R113). It is
total on any bytes; no byte value is illegal in any field (R78). -/
def decode (b : List Byte) : Except DecodeReject (Instr × List Byte) :=
  if b.length < 3 then .error .tooShort
  else
    let n := flen (byteAt b 2)
    if b.length < n + 2 then .error .incomplete
    else if crc16 (b.take n) ≠ trailerWord (byteAt b n) (byteAt b (n + 1)) then .error .crcMismatch
    else .ok (instrOf (b.take n), b.drop (n + 2))

/-- Step 5 of R113, iterated: one byte is dropped from the front as long as the head is long enough and fails the
CRC. What is left is short or begins with a valid frame (R116). -/
def resync : List Byte → List Byte
  | [] => []
  | b :: bs =>
    match decode (b :: bs) with
    | .error .crcMismatch => resync bs
    | _ => b :: bs

/-- `EXTRACT(B)`: the frame found, if any, and the buffer after (R113). -/
def extract (b : List Byte) : Option Instr × List Byte :=
  match decode (resync b) with
  | .ok (i, rest) => (some i, rest)
  | .error _ => (none, resync b)

/-! ### Instructions and Frame records (R14, R82) -/

/-- A format H record. -/
def Frame.header (dest sender code : Byte) : Frame := ⟨dest, sender, code, none⟩

/-- The Frame record of an instruction. -/
def Instr.frame : Instr → Frame
  | .ack dest sender => .header dest sender Config.codeAck
  | .nack dest sender => .header dest sender Config.codeNack
  | .set dest sender analog digit difficulty status =>
    ⟨dest, sender, Config.codeSet, some ⟨analog, digit, difficulty, status⟩⟩
  | .get dest sender => .header dest sender Config.codeGet
  | .unknown code dest sender => .header dest sender code

/-- The instruction of a Frame record; none for an ill-formed record (R14, R215 a). -/
def Frame.instr? (f : Frame) : Option Instr :=
  match f.kind, f.payload with
  | .ack, none => some (.ack f.dest f.sender)
  | .nack, none => some (.nack f.dest f.sender)
  | .set, some p => some (.set f.dest f.sender p.analog p.digit p.difficulty p.status)
  | .get, none => some (.get f.dest f.sender)
  | .unknown, none => some (.unknown f.code f.dest f.sender)
  | _, _ => none

/-! ### The encoder (R111) -/

/-- Header and payload of a record, in wire order (R43, R71, R72). -/
def Frame.body (f : Frame) : List Byte :=
  [f.dest, f.sender, f.code] ++
    match f.payload with
    | some p => [p.analog, p.digit, p.difficulty, p.status]
    | none => []

/-- The trailer of a body: CRC over header and payload only, low byte first (R41, R111). -/
def trailer (body : List Byte) : List Byte := [lo8 (crc16 body), hi8 (crc16 body)]

/-- `ENCODE` of an instruction: the wire bytes (R111). `OUT` (R16) is this list. -/
def encode (i : Instr) : List Byte := i.frame.body ++ trailer i.frame.body

/-- `ENCODE(f)` of a Frame record: refused (none) when the record is ill-formed (R111, R215 a). -/
def encodeFrame (f : Frame) : Option (List Byte) := f.instr?.map encode

/-- The wire length of an instruction, 5 or 9 (R70, R110). -/
def Instr.wireLen (i : Instr) : Nat := flen i.frame.code + Config.trailerLen

/-! ### The host's view of the opcode table -/

/-- The frame whose table bits are `w` (log 22). The table's `match` and `mask` number the bits of the command byte
`wire[2]`, so up to 8 bits are the command byte and the other bytes are 0; more bits are the wire bytes from the
first on. Bytes above are 0, but the trailer: where `w` gives none, it is the value the table computes for
`crcLow` and `crcHigh`. -/
def tableBytes (nbits w : Nat) : List Byte :=
  let given : List Byte :=
    if nbits ≤ 8 then [0, 0, BitVec.ofNat 8 w]
    else (List.range ((nbits + 7) / 8)).map fun k => BitVec.ofNat 8 (w >>> (8 * k))
  let n := flen (byteAt given 2)
  let body := (List.range n).map (byteAt given)
  if given.length ≤ n then body ++ trailer body else body ++ [byteAt given n, byteAt given (n + 1)]

/-- What the decoder reads from an opcode-table word. -/
def decodeTableWord (nbits w : Nat) : Option Instr :=
  match decode (tableBytes nbits w) with
  | .ok (i, _) => some i
  | .error _ => none

end Sys2Proof
end

