-- ==== Sys2Proof/Machine/Flags.lean ====
section
/-! DEFINITION. The block's flag-like views (spec/10_state.md R18): `TX_BUSY`, which is not a stored bit, and the
StatusBits of a Set frame. There are no condition codes. -/

namespace Sys2Proof
namespace Machine

/-- `TX_BUSY = (len(PORT_OUT) > 0)` (R18 a). -/
def txBusy (s : State) : Bool := decide (0 < s.portOut.length)

/-- `status[5] = 0`: resistor OK (R18 b). -/
def resistorOk (status : Byte) : Bool := !status.getLsbD 5

/-- `status[6] = 0`: jumpers OK (R18 b). -/
def jumpersOk (status : Byte) : Bool := !status.getLsbD 6

/-- `status[7] = 1`: the unit requests fresh target data (R18 b). -/
def freshRequested (status : Byte) : Bool := status.getLsbD 7

/-- Explicit bit assignment, the one way StatusBits are changed (R18 b). -/
def assignStatusBit (status : Byte) (bit : Nat) (v : Bool) : Byte :=
  if v then status ||| ((1 : Byte) <<< bit) else status &&& ~~~((1 : Byte) <<< bit)

end Machine
end Sys2Proof
end

