-- ==== Sys2Proof/Machine/Controllers.lean ====
section
/-! DEFINITION. The unit controllers of the host (spec/44_host_environment.md R181 to R193): the handlers that
`DISPATCH` calls, the deferred work, the byte and ohm conversions, and the read accessors of R197. -/

namespace Sys2Proof
namespace Machine

/-- A controller at `REGISTER` (spec/70_reset_and_hazards.md R241). -/
def freshController (p : Config.Params) (a : Byte) : Controller where
  address := a
  lastStatus := none
  lastUpdated := none
  everConnected := false
  needsFreshTarget := false
  jumperBreak := none
  resistorBreak := false
  pendingAutoRestore := none
  requiredOhms := p.initOhms
  jumperTarget := p.initJumper

/-! ### Byte and ohm (R191) -/

/-- `byteToOhm(b)`, truncating; the divisor is 1 to 256 (R191). -/
def byteToOhm (b : Byte) : Nat := (10000 * b.toNat) / (256 - b.toNat)

/-- `ohmToByte(ohms)` under truncation (R191). -/
def ohmToByteTrunc (ohms : Nat) : Byte := BitVec.ofNat 8 ((256 * ohms) / (ohms + 10000))

/-- `ohmToByte(ohms)` under rounding to nearest (R191, `OHM_ROUND`). A tie and a result of 256 are free values
(log 16). -/
def ohmToByteNearest (ohms : Nat) : Byte :=
  let den := ohms + 10000
  let low := (256 * ohms) / den
  let rest := (256 * ohms) % den
  let code := if 2 * rest > den || (2 * rest == den && Config.roundTieUp ohms) then low + 1 else low
  if code = 256 then Config.ohmCodeOverflow ohms else BitVec.ofNat 8 code

/-- `ohmToByte(ohms)` (R191). -/
def ohmToByte (p : Config.Params) (ohms : Nat) : Byte :=
  match p.ohmRound with
  | .trunc => ohmToByteTrunc ohms
  | .nearest => ohmToByteNearest ohms

/-! ### Handlers -/

/-- `onAck()` at host time `now` (R183). -/
def onAck (now : Nat) (c : Controller) : Controller :=
  { c with lastUpdated := some now, everConnected := true }

/-- `onNAck()`: a no-op on connection state (R184). -/
def onNAck (c : Controller) : Controller := c

/-- Whether the reported resistance differs from the required target: in ohms, or in byte codes under the
parameter of U14 (R188). -/
def restoreDiffers (p : Config.Params) (digit : Byte) (requiredOhms : Nat) : Bool :=
  if p.restoreInCodes then digit != ohmToByte p requiredOhms else byteToOhm digit != requiredOhms

/-- Auto-restore eligibility (R188). -/
def restoreEligible (p : Config.Params) (digit : Byte) (requiredOhms : Nat) : Bool :=
  p.autoRestore && restoreDiffers p digit requiredOhms && decide (p.repairThreshold ≤ byteToOhm digit) &&
    byteToOhm digit != byteToOhm 0xFF

/-- `onSet(analog, digit, difficulty, status)` at host time `now` (R185). -/
def onSet (p : Config.Params) (now : Nat) (pl : Payload) (c : Controller) : Controller :=
  onAck now
    { c with
      lastStatus := some pl
      needsFreshTarget := c.needsFreshTarget || freshRequested pl.status
      pendingAutoRestore :=
        if restoreEligible p pl.digit c.requiredOhms then some c.requiredOhms else c.pendingAutoRestore }

/-- `onGet()`: a no-op (R186). -/
def onGet (c : Controller) : Controller := c

/-- `onUnknown()`: a no-op (R186). -/
def onUnknown (c : Controller) : Controller := c

/-! ### Read accessors (R182, R192, R193, R197) -/

/-- Online (R182): Connected, and within 2 seconds since the last acknowledgment; at exactly 2 seconds the answer
is free (U7, log 14). -/
def online (now : Nat) (c : Controller) : Bool :=
  c.everConnected &&
    match c.lastUpdated with
    | none => false
    | some t =>
      let limit := Config.stalenessSeconds * Config.ticksPerSecond
      if now - t < limit then true
      else if now - t = limit then Config.onlineAtThreshold c.address now
      else false

/-- Dirty: any of the four pending items is set (R192). -/
def dirty (c : Controller) : Bool :=
  c.needsFreshTarget || c.jumperBreak.isSome || c.resistorBreak || c.pendingAutoRestore.isSome

/-- Consumption in ohms (R193). -/
def consumption (now : Nat) (c : Controller) : Nat :=
  match c.lastStatus with
  | some pl => if online now c && resistorOk pl.status && jumpersOk pl.status then c.requiredOhms else 0
  | none => 0

/-- The aggregate consumption over all controllers (R193, R197). -/
def totalConsumption (s : State) : Nat := (s.ctrlMap.map fun e => consumption s.host.now e.2).sum

/-- The first dirty controller in insertion order (R198 step 1). -/
def firstDirty (m : List (Byte × Controller)) : Option (Byte × Controller) := m.find? fun e => dirty e.2

/-- What an operator's request sets (R181; log 19). -/
def applyRequest (r : Request) (c : Controller) : Controller :=
  match r with
  | .freshTarget => { c with needsFreshTarget := true }
  | .jumperBreak explicit => { c with jumperBreak := some explicit }
  | .resistorBreak => { c with resistorBreak := true }

/-! ### Deferred work (R187) -/

/-- A byte that `generateJumper` accepts (R189). -/
def jumperAccepted (b : Byte) : Bool := decide (3 ≤ popcount b) && decide (popcount b ≤ 5)

/-- `generateJumper()`: the first accepted byte of the draw; none while every byte drawn was rejected (R189). -/
def generateJumper (draw : List Byte) : Option Byte := draw.find? jumperAccepted

/-- `generateResistor(current)`: the first drawn value of the nominal set that differs from the current target
(R190). -/
def generateResistor (current : Nat) (draw : List Nat) : Option Nat :=
  draw.find? fun ohms => Config.nominalOhms.contains ohms && ohms != current

/-- `UnitStore.get(address)` (R194). The no-op persistence synthesizes a default target for an unknown address: a
fresh random jumper pattern and zero resistor code (R196). DESIGN CHOICE (log 42): the pattern is a byte that
`generateJumper` accepts; R196 does not say so. The outer none: still drawing. -/
def storeGet (p : Config.Params) (h : HostSide) (a : Byte) (draw : List Byte) : Option (Option UnitTarget) :=
  match mapGet h.store a with
  | some t => some (some t)
  | none =>
    if p.noopPersistence then (generateJumper draw).map fun b => some ⟨a, 0x00, b⟩ else some none

/-- First test of R187: reload the persisted target. -/
def applyFreshTarget (p : Config.Params) (h : HostSide) (draw : PollDraw) (c : Controller) : Option Controller :=
  if c.needsFreshTarget then
    (storeGet p h c.address draw.target).map fun
      | some t =>
        { c with requiredOhms := byteToOhm t.resistorByte, jumperTarget := t.jumperByte, needsFreshTarget := false }
      | none => { c with needsFreshTarget := false }
  else some c

/-- Second test of R187: the jumper break. -/
def applyJumperBreak (draw : PollDraw) (c : Controller) : Option Controller :=
  match c.jumperBreak with
  | none => some c
  | some (some b) => some { c with jumperTarget := b, jumperBreak := none }
  | some none => (generateJumper draw.jumper).map fun b => { c with jumperTarget := b, jumperBreak := none }

/-- Third test of R187: the resistor break. -/
def applyResistorBreak (draw : PollDraw) (c : Controller) : Option Controller :=
  if c.resistorBreak then
    (generateResistor c.requiredOhms draw.resistor).map fun ohms =>
      { c with requiredOhms := ohms, resistorBreak := false }
  else some c

/-- Fourth test of R187: the pending auto-restore. -/
def applyAutoRestore (c : Controller) : Controller :=
  match c.pendingAutoRestore with
  | some ohms => { c with requiredOhms := ohms, pendingAutoRestore := none }
  | none => c

/-- The updates of `performPendingWork`, up to its `SEND` (R187); none while a draw has not been accepted yet. -/
def applyPending (p : Config.Params) (h : HostSide) (draw : PollDraw) (c : Controller) : Option Controller :=
  ((applyFreshTarget p h draw c).bind fun c₁ =>
    (applyJumperBreak draw c₁).bind fun c₂ =>
      applyResistorBreak draw c₂).map applyAutoRestore

/-- The pending items of `old` put back into `c` (U6, where the parameter asks for it). -/
def restorePending (old c : Controller) : Controller :=
  { c with
    needsFreshTarget := old.needsFreshTarget
    jumperBreak := old.jumperBreak
    resistorBreak := old.resistorBreak
    pendingAutoRestore := old.pendingAutoRestore }

/-- The target that a controller commands: what `performPendingWork` sends and stores (R187). -/
def targetOf (p : Config.Params) (c : Controller) : UnitTarget :=
  ⟨c.address, ohmToByte p c.requiredOhms, c.jumperTarget⟩

end Machine
end Sys2Proof
end

