-- ==== Sys2Proof/Machine/Ops.lean ====
section
/-! DEFINITION. The shared operations over the registers: the arbiters (spec/20_memory.md R50), `Log`, taking a
fault (spec/60_exceptions.md R210 to R214, R219), and what a frame does on receive, on dispatch and on send
(spec/42_transport.md, spec/43_command_dispatch.md). -/

namespace Sys2Proof
namespace Machine

/-! ### Arbiters (R50) -/

/-- Who holds an arbiter. -/
def holder (l : Lock) (s : State) : Option Agent :=
  match l with
  | .rx => s.rxLock
  | .port => s.portLock

/-- Write an arbiter. -/
def setHolder (l : Lock) (v : Option Agent) (s : State) : State :=
  match l with
  | .rx => { s with rxLock := v }
  | .port => { s with portLock := v }

/-- `Acquire(L)` by agent `a`: enabled only when `L` is free, not re-entrant; none: the agent waits (R50). -/
def acquire (l : Lock) (a : Agent) (s : State) : Option State :=
  match holder l s with
  | none => some (setHolder l (some a) s)
  | some _ => none

/-- `Release(L)` by its holder (R50). -/
def release (l : Lock) (a : Agent) (s : State) : State :=
  if holder l s = some a then setHolder l none s else s

/-! ### Events and faults -/

/-- `Log(e)` (R6, R27). -/
def logEvent (e : Event) (s : State) : State := { s with log := s.log ++ [e] }

/-- The operation answers ok to its caller (R7). -/
def returnOk (s : State) : State := { s with ret := some .ok }

/-- A record joins the set `FAULT` (R24). -/
def insertFault (r : FaultRecord) (fs : List FaultRecord) : List FaultRecord :=
  if r ∈ fs then fs else fs ++ [r]

/-- TAKING A FAULT: the record is added to `FAULT` and the fault is the result the caller gets; no program counter,
mode or mask is saved, and nothing else changes here (R211, R212, R214, R219). There is no return from a fault: the
block goes on with the next operation any agent invokes (R220). -/
def raise (r : FaultRecord) (s : State) : State :=
  { s with faults := insertFault r s.faults, ret := some (.raised r) }

/-- The operation that raises a fault (R24, R210). -/
def FaultRecord.raiser : FaultRecord → Raiser
  | .writeWhileBusy _ => .send
  | .ioTimeout .atOpen => .openPort
  | .ioTimeout .atRead => .rxArrive
  | .ioTimeout .atWrite => .send
  | .duplicateAddress _ => .register

/-- An `IoTimeout` record. -/
def FaultRecord.isTimeout : FaultRecord → Bool
  | .ioTimeout _ => true
  | _ => false

/-- A state with an `IoTimeout` in `FAULT` is faulted: nothing resumes until a reset (R212, R220). -/
def faulted (s : State) : Bool := s.faults.any FaultRecord.isTimeout

/-! ### The port (R133, R135) -/

/-- `RAW_READ()`: takes every byte of `PORT_IN`, in order (R133). -/
def rawRead (s : State) : List Byte × State := (s.portIn, { s with portIn := [] })

/-- `RAW_WRITE(w)`: the bytes enter `PORT_OUT` at once (R135). -/
def rawWrite (w : List Byte) (s : State) : State := { s with portOut := w }

/-! ### A frame on receive -/

/-- The frame at the head of `RXBUF` is taken: the head advances by the wire length, `FR` takes the record, and the
record is pushed to `DELIVQ`, whatever its kind, destination or sender (R113 step 6, R142, R173). -/
def receiveFrame (i : Instr) (s : State) : Out :=
  match dropFront s.rxBuf i.wireLen with
  | none => .refused .dropPastEnd
  | some rest =>
    .next { s with rxBuf := rest, fr := some i.frame, delivQ := s.delivQ ++ [i.frame], stage := .receive }

/-! ### A frame on dispatch -/

/-- `DEST_FILTER` drops the frame (R166, R170). -/
def filteredOut (f : Frame) (s : State) : Bool := s.params.destFilter && f.dest != Config.masterAddr

/-- A popped frame is filtered, or routed by its sender address to its handler, or logged as unrouted (R166, R169,
R170). -/
def routeFrame (f : Frame) (handler : Controller → Controller) (s : State) : State :=
  let s' := returnOk { s with stage := .receive }
  if filteredOut f s then s'
  else match mapGet s.ctrlMap f.sender with
    | none => logEvent (.unrouted f) s'
    | some _ => { s' with ctrlMap := mapModify s.ctrlMap f.sender handler }

/-! ### A frame on send -/

/-- The busy test and the raw write, made with `PORTLOCK` held by `caller` (R134, R135). A write timeout leaves a
part of the frame, of the drawn length, in `PORT_OUT` (R212, U4). -/
def writeFrame (i : Instr) (caller : Agent) (timeout : Option Nat) (s : State) : State :=
  if txBusy s then raise (.writeWhileBusy i.frame) (release .port caller s)
  else match timeout with
    | some k => raise (.ioTimeout .atWrite) (release .port caller (rawWrite ((encode i).take k) s))
    | none => returnOk (release .port caller (rawWrite (encode i) s))

/-- `SEND(f)` by `caller` (R134), refused for another sender than the master (R215 b) and while the port is closed
(R215 c). While another agent holds `PORTLOCK` the caller waits: the state is as it was (R50, log 25). -/
def sendFrame (i : Instr) (caller : Agent) (timeout : Option Nat) (s : State) : Out :=
  if i.frame.sender ≠ Config.masterAddr then .refused .senderNotMaster
  else if s.portOpen = false then .refused .portClosed
  else match acquire .port caller s with
    | none => .next s
    | some s' => .next (writeFrame i caller timeout { s' with stage := .receive })

/-! ### The three places of a frame, in one operation -/

/-- What the block does with a frame at the place where it stands (R161 to R165; log 4): on receive, on dispatch
with the handler of its kind, or on send. -/
def runFrame (i : Instr) (handler : Controller → Controller) (s : State) : Out :=
  match s.stage with
  | .receive => receiveFrame i s
  | .dispatch => .next (routeFrame i.frame handler s)
  | .send caller timeout => sendFrame i caller timeout s

end Machine
end Sys2Proof
end

