-- ==== Sys2Proof/Machine/Frames.lean ====
section
/-! DEFINITION. The meanings of the five command frames (spec/43_command_dispatch.md R161 to R165), one definition
each. The common path is `runFrame`; what differs is the encoding, which `Instr` carries, and the handler that
`DISPATCH` calls (R166). -/

namespace Sys2Proof
namespace Machine

/-- `ACK dest, sender` (R161); its handler is `onAck` (R183). -/
def execAck (dest sender : Byte) (s : State) : Out := runFrame (.ack dest sender) (onAck s.host.now) s

/-- `NACK dest, sender` (R162); its handler is `onNAck` (R184). The block does not retransmit, count or log it. -/
def execNack (dest sender : Byte) (s : State) : Out := runFrame (.nack dest sender) onNAck s

/-- `SET dest, sender, analog, digit, difficulty, status` (R163); its handler is `onSet` with the four payload
bytes unchanged (R185). -/
def execSet (dest sender analog digit difficulty status : Byte) (s : State) : Out :=
  runFrame (.set dest sender analog digit difficulty status)
    (onSet s.params s.host.now ⟨analog, digit, difficulty, status⟩) s

/-- `GET dest, sender` (R164); its handler is a no-op (R186). The block does not answer a Get. -/
def execGet (dest sender : Byte) (s : State) : Out := runFrame (.get dest sender) onGet s

/-- `UNKNOWN(code) dest, sender` (R165); its handler is a no-op (R186). A record whose code is one of the four named
codes is no Unknown frame: it is refused as ill-formed (R14, R215 a). -/
def execUnknown (code dest sender : Byte) (s : State) : Out :=
  if isUnknownCode code then runFrame (.unknown code dest sender) onUnknown s else .refused .illFormedFrame

end Machine
end Sys2Proof
end

