-- ==== Sys2Proof/Machine/Dispatch.lean ====
section
/-! DEFINITION. The dispatch of an instruction to its meaning, one arm per constructor. -/

namespace Sys2Proof
namespace Machine

def exec (i : Instr) (s : State) : Host.Outcome State Fault Refusal :=
  match i with
  | .ack dest sender => Sys2Proof.Machine.execAck dest sender s
  | .nack dest sender => Sys2Proof.Machine.execNack dest sender s
  | .set dest sender analog digit difficulty status => Sys2Proof.Machine.execSet dest sender analog digit difficulty status s
  | .get dest sender => Sys2Proof.Machine.execGet dest sender s
  | .unknown code dest sender => Sys2Proof.Machine.execUnknown code dest sender s

end Machine
end Sys2Proof
end

