-- ==== Sys2Proof/Machine/Transport.lean ====
section
/-! DEFINITION. The Transport's operations (spec/42_transport.md) and the two steps of the line. An operation
answers none when its agent has no step in this state: it waits (spec/20_memory.md R50). -/

namespace Sys2Proof
namespace Machine

/-! ### The line -/

/-- `LINE_DELIVER(s)`: the bytes join `PORT_IN` and one notification is raised (R131). -/
def lineDeliver (first : Byte) (others : List Byte) (s : State) : State :=
  { s with portIn := append s.portIn (first :: others), arrivals := s.arrivals + 1 }

/-- `LINE_DRAIN(k)`: enabled for `1 <= k <= len(PORT_OUT)`; the first `k` bytes go onto the line (R136). -/
def lineDrain (k : Nat) (s : State) : Option State :=
  if 1 ≤ k ∧ k ≤ s.portOut.length then
    some { s with wireOut := s.portOut.take k, portOut := s.portOut.drop k }
  else none

/-! ### Receive -/

/-- The fetch: `EXTRACT` on `RXBUF` up to its step 5. Bytes that cannot begin a frame are dropped, and the frame at
the head, if there is one, is decoded (R57, R113). -/
def fetchFrame (s : State) : State × Option Instr :=
  let b := resync s.rxBuf
  match decode b with
  | .ok (i, _) => ({ s with rxBuf := b, stage := .receive }, some i)
  | .error _ => ({ s with rxBuf := b, fr := none }, none)

/-- `n` extractions, stopped by the first `None` (R132). -/
def extractTimes : Nat → State → Out
  | 0, s => .next s
  | n + 1, s =>
    match fetchFrame s with
    | (s', none) => .next s'
    | (s', some i) =>
      match exec i s' with
      | .next t => extractTimes n t
      | o => o

/-- How many extractions one arrival makes: one, or enough to reach `None` (R132, R115). -/
def extractions (s : State) : Nat :=
  match s.params.extracts with
  | .once => 1
  | .untilNone => s.rxBuf.length + 1

/-- Entry of a `DecodeError`: the buffer is cleared and the event logged; no fault is recorded (R138, R213). -/
def absorbDecodeError (info : Nat) (s : State) : State :=
  logEvent (.decodeError info) { s with rxBuf := [], fr := none }

/-- Append, extract, deliver, with `RXLOCK` held (R132), and the oracle `decode_fault` where it may fire (R138). -/
def appendExtract (chunk : List Byte) (draw : Option DecodeDraw) (s : State) : Out :=
  let s' := { s with rxBuf := append s.rxBuf chunk }
  match if s.params.decodeFault then draw else none with
  | none => extractTimes (extractions s') s'
  | some d =>
    match extractTimes (min d.pushed (extractions s')) s' with
    | .next t => .next (absorbDecodeError d.info t)
    | o => o

/-- The part of `RX_ARRIVE` between the acquisition of `PORTLOCK` and the end (R51, R132): a read timeout ends the
arrival with `PORT_IN` and `RXBUF` unchanged (R133, R212). -/
def serveArrival (a : Agent) (draw : ArriveDraw) (s : State) : Out :=
  if draw.readTimeout then .next (raise (.ioTimeout .atRead) (release .rx a (release .port a s)))
  else
    let (chunk, s') := rawRead s
    match appendExtract chunk draw.decodeFault (release .port a s') with
    | .next t => .next (returnOk (release .rx a t))
    | o => o

/-- `RX_ARRIVE` by arrival agent `id` (R132): refused while the port is closed (R215 c); the agent waits while no
notification is pending or an arbiter is held. `RXLOCK` is taken first, `PORTLOCK` inside it (R51). -/
def rxArrive (id : Nat) (draw : ArriveDraw) (s : State) : Option Out :=
  if s.portOpen = false then some (.refused .portClosed)
  else if s.arrivals = 0 then none
  else
    (acquire .rx (.arrival id) { s with arrivals := s.arrivals - 1 }).bind fun s₁ =>
      (acquire .port (.arrival id) s₁).map fun s₂ =>
        serveArrival (.arrival id) draw s₂

/-! ### Send -/

/-- `SEND(f)` as an agent's operation (R134): an ill-formed record is refused (R215 a); the caller waits while
`PORTLOCK` is held. -/
def sendOp (caller : Agent) (f : Frame) (timeout : Option Nat) (s : State) : Option Out :=
  match f.instr? with
  | none => some (.refused .illFormedFrame)
  | some i =>
    if s.portLock.isSome then none
    else some (exec i { s with stage := .send caller timeout })

/-! ### Opening the port, reset -/

/-- `OPEN_PORT` (R242): `PORT_OPEN` becomes true, or an `IoTimeout` leaves it as it was. -/
def openPort (timeout : Bool) (s : State) : State :=
  if timeout then raise (.ioTimeout .atOpen) s else returnOk { s with portOpen := true }

/-- Reset: the Transport and the Bus are created anew (R240). The registers of R10 take their reset values; the
host's store, clock and log, the parameters, the agenda and the line are not the block's and stay (log 29). -/
def resetBlock (s : State) : State :=
  { State.reset with
    host := { s.host with poll := .idle }
    params := s.params
    agenda := s.agenda
    wireOut := s.wireOut }

end Machine
end Sys2Proof
end

