-- ==== Sys2Proof/Machine/Bus.lean ====
section
/-! DEFINITION. The Bus: dispatcher, registration table (spec/43_command_dispatch.md R166 to R171) and the poll cycle
of the host (spec/44_host_environment.md R187, R198). All of it runs on the one poll/dispatch agent; a call by
another agent is refused (spec/60_exceptions.md R215 e). An operation answers none when its agent waits. -/

namespace Sys2Proof
namespace Machine

/-- Another caller than the poll/dispatch agent is refused (R215 e); the poll/dispatch agent takes up nothing else
between the two sends of a `pollOnce` (R171, R198). DESIGN CHOICE (log 24): the agent is tested first, before the
reserved address of R215 (d); the spec does not order the two. -/
def onPollAgent (caller : Agent) (s : State) (op : Option Out) : Option Out :=
  if caller ≠ .poll then some (.refused .wrongAgent)
  else if s.host.poll ≠ .idle then none
  else op

/-- `DISPATCH`: enabled when `DELIVQ` is not empty; the oldest frame is popped and routed (R166). -/
def dispatch (caller : Agent) (s : State) : Option Out :=
  onPollAgent caller s <|
    match s.delivQ with
    | [] => none
    | f :: q =>
      match f.instr? with
      | none => some (.refused .illFormedFrame)
      | some i => some (exec i { s with delivQ := q, stage := .dispatch })

/-- `REGISTER(a, h)` with a new controller (R167): first the reserved addresses, then the duplicate (R218). The agent
is tested before both (log 24). -/
def registerUnit (caller : Agent) (a : Byte) (s : State) : Option Out :=
  onPollAgent caller s <|
    if isReserved a then some (.refused .reservedAddress)
    else match mapGet s.ctrlMap a with
      | some _ => some (.next (raise (.duplicateAddress a) s))
      | none => some (.next (returnOk { s with ctrlMap := s.ctrlMap ++ [(a, freshController s.params a)] }))

/-- `UNREGISTER(a)`: no effect on the table when `a` is absent (R168). -/
def unregisterUnit (caller : Agent) (a : Byte) (s : State) : Option Out :=
  onPollAgent caller s (some (.next (returnOk { s with ctrlMap := mapErase s.ctrlMap a })))

/-- An operator's request (log 19): no effect when no controller is registered at `a`. -/
def requestUnit (a : Byte) (r : Request) (s : State) : Option Out :=
  onPollAgent .poll s (some (.next { s with ctrlMap := mapModify s.ctrlMap a (applyRequest r) }))

/-! ### The poll cycle -/

/-- Whether the last operation raised a fault. -/
def didRaise (s : State) : Bool :=
  match s.ret with
  | some (.raised _) => true
  | _ => false

/-- The poll agent's place in `pollOnce`. -/
def setPoll (p : PollPhase) (s : State) : State := { s with host := { s.host with poll := p } }

/-- Step (2) of `pollOnce`: the broadcast Get; with it the tick ends, also when the send faults (R198, U5). -/
def pollBroadcast (timeout : Option Nat) (s : State) : Out :=
  exec (.get Config.bcastAddr Config.masterAddr) (setPoll .idle { s with stage := .send .poll timeout })

/-- After a fault of the `SEND` of `performPendingWork` (U5, U6). By default the tick ends there: the store is not
written and the pending items stay cleared; the parameters choose otherwise (log 18). -/
def afterFailedSet (a : Byte) (old c : Controller) (s : State) : State :=
  { s with
    ctrlMap := if s.params.restoreOnFault then mapModify s.ctrlMap a (fun _ => restorePending old c) else s.ctrlMap
    host :=
      { (if s.params.storeOnFault then storeSet (targetOf s.params c) s.host else s.host) with
        poll := if s.params.broadcastAfterFault then .broadcast else .idle } }

/-- What follows the `SEND` of `performPendingWork`: the target is stored, and the broadcast is next (R187, R198). -/
def afterSet (a : Byte) (old c : Controller) (s : State) : State :=
  if didRaise s then afterFailedSet a old c s
  else { s with host := { storeSet (targetOf s.params c) s.host with poll := .broadcast } }

/-- `performPendingWork` of the controller `old` at key `a`, its updates made in `c`: one Set is sent (R187). -/
def sendTarget (a : Byte) (old c : Controller) (timeout : Option Nat) (s : State) : Out :=
  match exec
      (.set c.address Config.masterAddr c.jumperTarget (ohmToByte s.params c.requiredOhms) s.params.setDifficulty
        s.params.setStatus)
      { s with ctrlMap := mapModify s.ctrlMap a (fun _ => c), stage := .send .poll timeout } with
  | .next t => .next (afterSet a old c t)
  | o => o

/-- The next step of `pollOnce` (R198). With a dirty controller the tick takes two steps, each with one `SEND` (P3
of spec/95_test_vectors.md); without one it is the broadcast alone. -/
def pollStep (caller : Agent) (draw : PollDraw) (s : State) : Option Out :=
  if caller ≠ .poll then some (.refused .wrongAgent)
  else if s.portLock.isSome then none
  else match s.host.poll with
    | .broadcast => some (pollBroadcast draw.write s)
    | .idle =>
      match firstDirty s.ctrlMap with
      | none => some (pollBroadcast draw.write s)
      | some (a, c) => (applyPending s.params s.host draw c).map fun c' => sendTarget a c c' draw.write s

/-- The host's boot (spec/70_reset_and_hazards.md R243): load the store, reset the block and open the port, register one
controller per unit address. The poll timer then runs. It boots from every state, a faulted one too (log 38). -/
def bootAgenda (p : Config.Params) : List Action :=
  [.loadAll, .reset, .openPort false] ++ (unitRange p).map fun a => .register .poll a

end Machine
end Sys2Proof
end

