-- ==== Sys2Proof/Machine/Agents.lean ====
section
/-! DEFINITION. The agents and their steps (spec/60_exceptions.md R225): who runs an operation, what one operation
does, and which operation of the agenda is the next step (log 1, log 2). -/

namespace Sys2Proof
namespace Machine

/-- The agent that runs an operation (R225). -/
def Action.agent : Action → Agent
  | .lineDeliver _ _ => .line
  | .lineDrain _ => .line
  | .rxArrive id _ => .arrival id
  | .send caller _ _ => caller
  | .dispatch caller => caller
  | .register caller _ => caller
  | .unregister caller _ => caller
  | .openPort _ => .poll
  | .reset => .supervisor
  | .poll caller _ => caller
  | .request _ _ => .poll
  | .storeSet _ => .poll
  | .loadAll => .poll
  | .flush _ => .flush
  | .tick _ => .clock

/-- One operation (R7). None: its agent has no step in this state and waits. -/
def runAction (a : Action) (s : State) : Option Out :=
  match a with
  | .lineDeliver first others => some (.next (lineDeliver first others s))
  | .lineDrain k => (lineDrain k s).map .next
  | .rxArrive id draw => rxArrive id draw s
  | .send caller f timeout =>
    if caller = .poll ∧ s.host.poll ≠ .idle then none else sendOp caller f timeout s
  | .dispatch caller => dispatch caller s
  | .register caller a => registerUnit caller a s
  | .unregister caller a => unregisterUnit caller a s
  | .openPort timeout => onPollAgent .poll s (some (.next (openPort timeout s)))
  | .reset => some (.next (resetBlock s))
  | .poll caller draw => pollStep caller draw s
  | .request a r => requestUnit a r s
  | .storeSet t => onPollAgent .poll s (some (.next { s with host := storeSet t s.host }))
  | .loadAll => onPollAgent .poll s (some (.next { s with host := loadAll s.params s.host }))
  | .flush ok => (flushStep s.params ok s.host).map fun h => .next { s with host := h }
  | .tick d => some (.next { s with host := { s.host with now := s.host.now + d } })

/-- One operation where the block may be faulted: after an `IoTimeout` nothing but a reset has a step (R220). -/
def attempt (a : Action) (s : State) : Option Out :=
  if faulted s && a != .reset then none else runAction a s

/-- The next step: the first operation of the agenda that has a step and whose agent is not waiting with an earlier
one (R50, R55); a reset waits for nobody (R240). `kept` are the operations passed over, `waiting` their agents. -/
def pick (s : State) (kept : List Action) (waiting : List Agent) : List Action → Option Out
  | [] => none
  | a :: rest =>
    if a.agent ∈ waiting ∧ a ≠ .reset then pick s (kept ++ [a]) waiting rest
    else match attempt a { s with agenda := kept ++ rest } with
      | some o => some o
      | none => pick s (kept ++ [a]) (a.agent :: waiting) rest

/-- What a step answers when no agent has one: the block is idle and stays as it is (R175, R244); after an
`IoTimeout` it is stopped until a reset (R220). -/
def idleStep (s : State) : Out := if faulted s then .fault .awaitingReset else .next s

/-- The state that `withFetchWord` builds: the frame of an opcode-table word stands at the head of `RXBUF`, one more
notification is pending and an arrival agent is about to serve it; the port is open and its input empty, the
arbiters are free, and no timeout is outstanding (log 23). -/
def fetchWordState (s : State) (nbits w : Nat) : State :=
  { s with
    rxBuf := tableBytes nbits w
    portIn := []
    arrivals := s.arrivals + 1
    portOpen := true
    rxLock := none
    portLock := none
    faults := s.faults.filter fun r => !r.isTimeout
    agenda := .rxArrive 0 {} :: s.agenda
    stage := .receive }

end Machine
end Sys2Proof
end

