-- ==== Sys2Proof/Machine/Step.lean ====
section
/-! DEFINITION. The step of the machine: one atomic operation by one agent (spec/00_scope.md R7,
spec/20_memory.md R55), taken from the agenda. -/

namespace Sys2Proof
namespace Machine

/-- One step. -/
def step (s : State) : Host.Outcome State Fault Refusal :=
  match pick s [] [] s.agenda with
  | some o => o
  | none => idleStep s

/-- `s` with the frame of an opcode-table word placed where the next step fetches it (log 23). -/
def State.withFetchWord (s : State) (nbits w : Nat) : State := fetchWordState s nbits w

end Machine
end Sys2Proof
end

