-- ==== Sys2Proof/Safety.lean ====
section
/-! DEFINITION. What claims about runs are stated in: a run without faults, a quiescent state
(spec/70_reset_and_hazards.md R244), and the forms the state keeps. -/

namespace Sys2Proof
namespace Machine

/-! ### Fault-free and quiescent states -/

/-- The premise of a claim about a run (spec/60_exceptions.md R227). -/
def faultFree (s : State) : Bool := s.faults.isEmpty

/-- Quiescent (R244). It does not say that the line is idle or that no unit is about to answer. -/
def quiescent (s : State) : Bool :=
  s.arrivals == 0 && s.portIn.isEmpty && s.portOut.isEmpty && s.delivQ.isEmpty && s.rxLock.isNone &&
    s.portLock.isNone && extract s.rxBuf == (none, s.rxBuf)

/-! ### The forms the state keeps -/

/-- Addresses strictly rising: the canonical form of an address set. -/
abbrev AddrsOk (l : List Byte) : Prop := (l.map BitVec.toNat).Pairwise (· < ·)

/-- The canonical form of a store map: addresses strictly rising, each target under its own address (R194, R199). -/
abbrev StoreOk (m : List (Byte × UnitTarget)) : Prop :=
  AddrsOk (m.map Prod.fst) ∧ ∀ e ∈ m, e.2.address = e.1

/-- `CTRL_MAP`: at most one controller an address, none at a reserved address, each under its own address (R21,
R167, R181). -/
abbrev CtrlMapOk (m : List (Byte × Controller)) : Prop :=
  (m.map Prod.fst).Nodup ∧ ∀ e ∈ m, isReserved e.1 = false ∧ e.2.address = e.1

/-- A flush in progress: something is left of its snapshot, and all of it is still dirty (R195). -/
abbrev FlushOk (dirty : List Byte) (fl : Flush) : Prop :=
  fl.todo ≠ [] ∧ AddrsOk fl.todo ∧ AddrsOk fl.setAgain ∧ ∀ a ∈ fl.todo, a ∈ dirty

/-- The host's tables (R194, R195). -/
abbrev HostOk (h : HostSide) : Prop :=
  StoreOk h.store ∧ StoreOk h.saved ∧ AddrsOk h.dirty ∧ (∀ a ∈ h.dirty, (mapGet h.store a).isSome) ∧
    ∀ fl ∈ h.flush, FlushOk h.dirty fl

/-- The record a fault carries is well-formed (R14). -/
def FaultRecord.wf : FaultRecord → Bool
  | .writeWhileBusy f => f.wf
  | .ioTimeout _ => true
  | .duplicateAddress _ => true

/-- The record an event carries is well-formed (R14). -/
def Event.wf : Event → Bool
  | .decodeError _ => true
  | .unrouted f => f.wf

/-- Every Frame record the block holds is well-formed (R14). -/
abbrev RecordsOk (s : State) : Prop :=
  (∀ f ∈ s.fr, f.wf) ∧ (∀ f ∈ s.delivQ, f.wf) ∧ (∀ r ∈ s.faults, r.wf) ∧ ∀ e ∈ s.log, e.wf

/-- Between steps both arbiters are free (R53) and no frame is in `exec`'s hands. -/
abbrev BetweenSteps (s : State) : Prop := s.rxLock = none ∧ s.portLock = none ∧ s.stage = .receive

/-- The invariant of the machine. -/
structure Inv (s : State) : Prop where
  between : BetweenSteps s
  ctrlMap : CtrlMapOk s.ctrlMap
  records : RecordsOk s
  faults : s.faults.Nodup
  host : HostOk s.host

/-- No frame pipelining (R134, R140): `PORT_OUT` holds nothing but consecutive bytes of one frame sent by the
master. -/
def OneFrameOut (s : State) : Prop :=
  s.portOut = [] ∨ ∃ i : Instr, i.wf ∧ i.frame.sender = Config.masterAddr ∧ s.portOut <:+: encode i

/-! ### A byte stream, read frame by frame (spec/41_frame_codec.md R113) -/

/-- `Parses b is r`: reading `b` from its head, dropping one byte at each mismatch, gives the frames `is` in order
and stops at the head `r`, which is too short or incomplete. -/
inductive Parses : List Byte → List Instr → List Byte → Prop
  | stop {b : List Byte} {why : DecodeReject} (h : decode b = .error why) (hw : why ≠ .crcMismatch) : Parses b [] b
  | drop {x : Byte} {b r : List Byte} {is : List Instr} (h : decode (x :: b) = .error .crcMismatch)
      (hb : Parses b is r) : Parses (x :: b) is r
  | take {b rest r : List Byte} {i : Instr} {is : List Instr} (h : decode b = .ok (i, rest))
      (hb : Parses rest is r) : Parses b (i :: is) r

/-! ### The CRC as a polynomial remainder (spec/40_crc16.md R102 a) -/

/-- A byte sequence read as one long number, first byte most significant: its bits are the coefficients of `M(x)`. -/
def bigEndian (s : List Byte) : Nat := s.foldl (fun n b => n * 256 + b.toNat) 0

/-- The product over GF(2) of the polynomial with coefficients `q`, most significant first, and the one whose
coefficients are the bits of `p`. -/
def polyMul (q : List Bool) (p : Nat) : Nat := q.foldl (fun acc b => (acc * 2) ^^^ (if b then p else 0)) 0

/-- `x^16 + x^12 + x^5 + 1`. -/
def crcModulus : Nat := 0x11021

end Machine
end Sys2Proof
end

