-- ==== Sys2Proof/Certificates/Slice0/Obligations.lean ====
section
/-! DEFINITION. The statements about the RC block, in the order: codec, CRC, frames, transport, bus, host, machine.
Each docstring names the rule it formalises. -/

open Sys2Proof Sys2Proof.Machine

/-! ### The frame codec -/

/-- R118: `EXTRACT` on `ENCODE(f) ++ t` returns `f` and leaves `t`; what `EXTRACT` returns, having dropped its noise,
is what stood at the head, encoded; and the vector of D00 §8. -/
def Obligations.EncodeThenExtractRoundTrip : Prop :=
  (∀ f : Frame, f.wf →
    ∃ i u, f.instr? = some i ∧ i.frame = f ∧ encodeFrame f = some u ∧
      ∀ t, decode (u ++ t) = .ok (i, t) ∧ extract (u ++ t) = (some i, t)) ∧
  (∀ b i rest, extract b = (some i, rest) → resync b = encode i ++ rest) ∧
  encode (.get 0x05 0x80) = [0x05, 0x80, 0x04, 0xA1, 0xD0] ∧
  decode [0x05, 0x80, 0x04, 0xA1, 0xD0] = .ok (.get 0x05 0x80, [])

/-- R82: well-formed instructions and the byte sequences the decoder accepts correspond one to one. -/
def Obligations.AcceptedBytesAreEncodings : Prop :=
  (∀ b i rest, decode b = .ok (i, rest) → i.wf ∧ b = encode i ++ rest) ∧
  (∀ i, i.wf → (encode i).length = i.wireLen ∧ (i.wireLen = 5 ∨ i.wireLen = 9) ∧ decode (encode i) = .ok (i, [])) ∧
  ∀ i j, i.wf → j.wf → encode i = encode j → i = j

/-- R113 and R218: the decoder's three tests, in their order, and that it accepts in every other case. -/
def Obligations.DecoderTestsInOrder : Prop :=
  ∀ b : List Byte,
    (decode b = .error .tooShort ↔ b.length < 3) ∧
    (decode b = .error .incomplete ↔ 3 ≤ b.length ∧ b.length < flen (byteAt b 2) + 2) ∧
    (decode b = .error .crcMismatch ↔
      flen (byteAt b 2) + 2 ≤ b.length ∧
        crc16 (b.take (flen (byteAt b 2))) ≠
          trailerWord (byteAt b (flen (byteAt b 2))) (byteAt b (flen (byteAt b 2) + 1))) ∧
    ((∃ i rest, decode b = .ok (i, rest)) ↔
      flen (byteAt b 2) + 2 ≤ b.length ∧
        crc16 (b.take (flen (byteAt b 2))) =
          trailerWord (byteAt b (flen (byteAt b 2))) (byteAt b (flen (byteAt b 2) + 1)))

/-- R110 and R74: the frame length and the kind of every command byte; the length counts header and payload, and the
wire length is two more. -/
def Obligations.LengthAndKindOfEveryCode : Prop :=
  (∀ c : Byte,
    flen c = (if c = 0x03 then 7 else 3) ∧
    kindOf c =
      (if c = 0x00 then .ack else if c = 0x01 then .nack else if c = 0x03 then .set else if c = 0x04 then .get
        else .unknown)) ∧
  ∀ i : Instr, i.wf →
    i.frame.kind = kindOf i.frame.code ∧ i.frame.body.length = flen i.frame.code ∧
      (encode i).length = flen i.frame.code + 2

/-- R116: with `d` the number of bytes dropped, every earlier offset failed the CRC, the suffix at `d` is short or a
frame, and what `EXTRACT` answers and leaves in each case; no byte at or beyond offset `d + 9` matters. -/
def Obligations.ExtractStopsAtFirstShortOrValidSuffix : Prop :=
  ∀ b : List Byte, ∃ d, d ≤ b.length ∧
    (∀ e < d, decode (b.drop e) = .error .crcMismatch) ∧ decode (b.drop d) ≠ .error .crcMismatch ∧
    ((∃ why, decode (b.drop d) = .error why) →
      extract b = (none, b.drop d) ∧ (b.drop d).length ≤ 8 ∧
        ((b.drop d).length ≤ 4 ∨ (3 ≤ (b.drop d).length ∧ byteAt (b.drop d) 2 = 0x03))) ∧
    (∀ i rest, decode (b.drop d) = .ok (i, rest) →
      extract b = (some i, rest) ∧ i.frame = fields (b.drop d) ∧
        rest = b.drop (d + flen i.frame.code + 2) ∧ (b.drop d).take (flen i.frame.code + 2) = encode i ∧
        ∀ t, extract (b.take (d + 9) ++ t) = (some i, (b.take (d + 9)).drop (d + flen i.frame.code + 2) ++ t)) ∧
    (extract b).2 <:+ b

/-- R115: an iteration of `EXTRACT` returns or removes exactly one byte, and at most `max(0, L - 4)` bytes are
dropped. -/
def Obligations.ResyncDropsOneByteAndTerminates : Prop :=
  (∀ x b, decode (x :: b) = .error .crcMismatch → resync (x :: b) = resync b) ∧
  (∀ b, decode b ≠ .error .crcMismatch → resync b = b) ∧
  ∀ b, resync b <:+ b ∧ b.length - (resync b).length ≤ b.length - 4

/-- R114: where the first iteration finds too few bytes the buffer is unchanged; whenever `EXTRACT` answers `None`,
asking again changes nothing; after a mismatch the dropped bytes stay dropped. -/
def Obligations.IncompleteHeadIsLeftUnchanged : Prop :=
  (∀ b : List Byte, b.length < 3 ∨ b.length < flen (byteAt b 2) + 2 → extract b = (none, b)) ∧
  (∀ b r, extract b = (none, r) → r <:+ b ∧ extract r = (none, r)) ∧
  ∀ b r, decode b = .error .crcMismatch → extract b = (none, r) → r <:+ b ∧ r.length < b.length

/-- R71, R72, R41: the wire bytes of the five frames, field by field, trailer low byte first; and the word a trailer
stands for. Which function `crc16` is, is the spec's own decision D1 (log 8). -/
def Obligations.WireLayoutOfEveryFrame : Prop :=
  (∀ d n : Byte,
    encode (.ack d n) = [d, n, 0x00, lo8 (crc16 [d, n, 0x00]), hi8 (crc16 [d, n, 0x00])] ∧
    encode (.nack d n) = [d, n, 0x01, lo8 (crc16 [d, n, 0x01]), hi8 (crc16 [d, n, 0x01])] ∧
    encode (.get d n) = [d, n, 0x04, lo8 (crc16 [d, n, 0x04]), hi8 (crc16 [d, n, 0x04])]) ∧
  (∀ c d n : Byte, isUnknownCode c →
    encode (.unknown c d n) = [d, n, c, lo8 (crc16 [d, n, c]), hi8 (crc16 [d, n, c])]) ∧
  (∀ d n a g f t : Byte,
    encode (.set d n a g f t) =
      [d, n, 0x03, a, g, f, t, lo8 (crc16 [d, n, 0x03, a, g, f, t]), hi8 (crc16 [d, n, 0x03, a, g, f, t])]) ∧
  (∀ w : Word, (lo8 w).toNat = w.toNat % 256 ∧ (hi8 w).toNat = w.toNat / 256) ∧
  ∀ t0 t1 : Byte, (trailerWord t0 t1).toNat = t0.toNat + 256 * t1.toNat

/-! ### CRC16 and POPCOUNT -/

/-- R101: the bytewise form with the table gives the CRC of every sequence; the table's entries are the CRCs of
`[t, 0, 0]` and the remainders of `t * x^16`. The spec derives it from R100, its own decision D1 (log 8). -/
def Obligations.BytewiseCrcAgrees : Prop :=
  (∀ s : List Byte, crc16Bytewise s = crc16 s) ∧
  (∀ t : Byte, crcTab t = crc16 [t, 0x00, 0x00]) ∧
  ∀ t : Byte, ∃ q, t.toNat * 65536 = polyMul q crcModulus ^^^ (crcTab t).toNat

/-- R102 (a): `CRC16(s)` is the remainder of the message polynomial modulo `x^16 + x^12 + x^5 + 1`, without
multiplication by `x^16`. The spec derives it from R100, its own decision D1 (log 8). -/
def Obligations.CrcIsPolynomialRemainder : Prop :=
  ∀ s : List Byte, ∃ q, bigEndian s = polyMul q crcModulus ^^^ (crc16 s).toNat

/-- R102 (b): linearity over sequences of equal length, and zeros give zero (of the CRC of D1, log 8). -/
def Obligations.CrcIsLinear : Prop :=
  (∀ s t : List Byte, s.length = t.length →
    crc16 (List.zipWith (fun a b => a ^^^ b) s t) = crc16 s ^^^ crc16 t) ∧
  ∀ n, crc16 (List.replicate n 0x00) = 0x0000

/-- R100's corner cases, R102 (c) and (d): short inputs, leading zeros, the header form (of the CRC of D1, log 8). -/
def Obligations.CrcOfShortInputs : Prop :=
  crc16 [] = 0x0000 ∧ (∀ b : Byte, (crc16 [b]).toNat = b.toNat) ∧
  (∀ a b : Byte, (crc16 [a, b]).toNat = a.toNat * 256 + b.toNat) ∧
  (∀ s : List Byte, crc16 (0x00 :: s) = crc16 s) ∧
  ∀ a b c : Byte, crc16 [a, b, c] = crcTab a ^^^ BitVec.ofNat 16 (b.toNat * 256 + c.toNat)

/-- R102 (e): the CRC of a message with two zero bytes behind it is the catalogued CRC-16/XMODEM of the message.
Which function XMODEM is, is general knowledge in the spec (log 40). -/
def Obligations.AugmentedCrcIsXmodem : Prop := ∀ s : List Byte, crc16 (s ++ [0x00, 0x00]) = crcXmodem s

/-- R261: flipping the same bits in `cmd` and `crcLow`, or in `sender` and `crcHigh`, turns a valid header-only frame
into a valid header-only frame. The spec derives it from R102. -/
def Obligations.PairedBitErrorsPassTheCrc : Prop :=
  ∀ d n c l h m : Byte, c ≠ 0x03 → c ^^^ m ≠ 0x03 →
    (∃ i, decode [d, n, c, l, h] = .ok (i, [])) →
    (∃ i, decode [d, n, c ^^^ m, l ^^^ m, h] = .ok (i, [])) ∧ ∃ i, decode [d, n ^^^ m, c, l, h ^^^ m] = .ok (i, [])

/-- R103: `POPCOUNT` counts the bits that are 1. -/
def Obligations.PopcountCountsSetBits : Prop :=
  (∀ b : Byte, popcount b = (List.range 8).countP (fun i => b.getLsbD i) ∧ popcount b ≤ 8) ∧
  popcount 0x00 = 0 ∧ popcount 0xFF = 8 ∧ popcount 0x68 = 3

/-! ### The five frames: on receive, on dispatch, on send -/

/-- R161 to R165, R142, R173: a frame of any kind at the head of `RXBUF` runs to a next state: the head advances by
its wire length, `FR` takes the record, `DELIVQ` gains it, and nothing else changes. That `exec` finds
the place of the frame in `stage` is the model's choice (log 3, log 4), as in the statements below. -/
def Obligations.ReceivedFrameIsDelivered : Prop :=
  ∀ (i : Instr) (s : State), i.wf → s.stage = .receive → i.wireLen ≤ s.rxBuf.length →
    exec i s = .next { s with
      rxBuf := s.rxBuf.drop i.wireLen, fr := some i.frame, delivQ := s.delivQ ++ [i.frame] }

/-- R215 (a) and (f): an `UNKNOWN` with one of the four named codes is refused at every place, and a frame longer
than `RXBUF` cannot be taken from it. The refusals are the spec's own decision D21; at every place: log 25. -/
def Obligations.IllFormedOrTooLongIsRefused : Prop :=
  (∀ (i : Instr) (s : State), i.wf = false → exec i s = .refused .illFormedFrame) ∧
  ∀ (i : Instr) (s : State), i.wf → s.stage = .receive → s.rxBuf.length < i.wireLen →
    exec i s = .refused .dropPastEnd

/-- R183, R161, R166: an Ack popped for a registered sender marks that controller Connected now; every other
controller and every other register is as it was. -/
def Obligations.AckMarksControllerConnected : Prop :=
  ∀ (dest sender : Byte) (s : State) (c : Controller), s.stage = .dispatch →
    (s.params.destFilter = true → dest = 0x80) → mapGet s.ctrlMap sender = some c →
    ∃ m, exec (.ack dest sender) s = .next { s with ctrlMap := m, stage := .receive, ret := some .ok } ∧
      m.map Prod.fst = s.ctrlMap.map Prod.fst ∧
      mapGet m sender = some { c with lastUpdated := some s.host.now, everConnected := true } ∧
      ∀ a, a ≠ sender → mapGet m a = mapGet s.ctrlMap a

/-- R185, R188, R163: a Set popped for a registered sender stores the payload, merges the fresh-target flag,
evaluates auto-restore, and acts as an Ack; every other controller and register is as it was. The comparison in byte
codes is the parameter of U14 (log 34). -/
def Obligations.SetUpdatesController : Prop :=
  ∀ (dest sender analog digit difficulty status : Byte) (s : State) (c : Controller), s.stage = .dispatch →
    (s.params.destFilter = true → dest = 0x80) → mapGet s.ctrlMap sender = some c →
    ∃ m, exec (.set dest sender analog digit difficulty status) s =
        .next { s with ctrlMap := m, stage := .receive, ret := some .ok } ∧
      m.map Prod.fst = s.ctrlMap.map Prod.fst ∧
      (∀ a, a ≠ sender → mapGet m a = mapGet s.ctrlMap a) ∧
      ∃ pending, mapGet m sender =
          some { c with
            lastStatus := some ⟨analog, digit, difficulty, status⟩
            needsFreshTarget := c.needsFreshTarget || status.getLsbD 7
            pendingAutoRestore := pending
            lastUpdated := some s.host.now
            everConnected := true } ∧
        (s.params.autoRestore = true →
          (if s.params.restoreInCodes then digit ≠ ohmToByte s.params c.requiredOhms
            else byteToOhm digit ≠ c.requiredOhms) →
          s.params.repairThreshold ≤ byteToOhm digit → byteToOhm digit ≠ 2550000 →
          pending = some c.requiredOhms) ∧
        (¬ (s.params.autoRestore = true ∧
            (if s.params.restoreInCodes then digit ≠ ohmToByte s.params c.requiredOhms
              else byteToOhm digit ≠ c.requiredOhms) ∧
            s.params.repairThreshold ≤ byteToOhm digit ∧ byteToOhm digit ≠ 2550000) →
          pending = c.pendingAutoRestore)

/-- R184, R186, R162, R164, R165: a NAck, a Get or an Unknown popped for a registered sender changes no controller
and no register. -/
def Obligations.NackGetUnknownChangeNoController : Prop :=
  ∀ (dest sender : Byte) (s : State), s.stage = .dispatch →
    (s.params.destFilter = true → dest = 0x80) → (mapGet s.ctrlMap sender).isSome →
    exec (.nack dest sender) s = .next { s with stage := .receive, ret := some .ok } ∧
    exec (.get dest sender) s = .next { s with stage := .receive, ret := some .ok } ∧
    ∀ code, isUnknownCode code →
      exec (.unknown code dest sender) s = .next { s with stage := .receive, ret := some .ok }

/-- R169: a frame whose sender has no controller is discarded and logged, at its own meaning and at the `DISPATCH`
that pops it; this covers every frame from the master or the broadcast address. The spec's own decision D11. -/
def Obligations.UnroutedFrameIsLogged : Prop :=
  (∀ (i : Instr) (s : State), i.wf → s.stage = .dispatch →
    (s.params.destFilter = true → i.frame.dest = 0x80) → mapGet s.ctrlMap i.frame.sender = none →
    exec i s = .next { s with stage := .receive, ret := some .ok, log := s.log ++ [.unrouted i.frame] }) ∧
  (∀ (f : Frame) (q : List Frame) (s : State), f.wf → BetweenSteps s → s.host.poll = .idle → s.delivQ = f :: q →
    (s.params.destFilter = true → f.dest = 0x80) → mapGet s.ctrlMap f.sender = none →
    runAction (.dispatch .poll) s =
      some (.next { s with delivQ := q, ret := some .ok, log := s.log ++ [.unrouted f] })) ∧
  ∀ m, CtrlMapOk m → mapGet m 0x80 = none ∧ mapGet m 0xF0 = none

/-- R170: with `DEST_FILTER` off two frames that differ in their destination alone do the same to a registered
sender's controller; with it on, a frame not for the master is discarded without a log entry. The spec's own decision D11. -/
def Obligations.DestinationIsTestedOnlyByTheFilter : Prop :=
  (∀ (i j : Instr) (s : State), i.wf → j.wf → s.stage = .dispatch → s.params.destFilter = false →
    j.frame = { i.frame with dest := j.frame.dest } → (mapGet s.ctrlMap i.frame.sender).isSome →
    exec i s = exec j s) ∧
  ∀ (i : Instr) (s : State), i.wf → s.stage = .dispatch → s.params.destFilter = true → i.frame.dest ≠ 0x80 →
    exec i s = .next { s with stage := .receive, ret := some .ok }

/-- R134, R135: a frame of the master, of any kind, is written whole into an empty `PORT_OUT`; nothing else changes,
and `PORTLOCK` is free again. That the write does not wait for the line is the spec's own decision D8. -/
def Obligations.SendWritesTheWholeFrame : Prop :=
  ∀ (i : Instr) (caller : Agent) (s : State), i.wf → i.frame.sender = 0x80 → s.stage = .send caller none →
    s.portOpen = true → s.portLock = none → s.portOut = [] →
    exec i s = .next { s with portOut := encode i, stage := .receive, ret := some .ok } ∧
      txBusy { s with portOut := encode i } = true

/-- R211: a send that finds `PORT_OUT` not empty writes nothing, records `WriteWhileBusy` with the frame and returns
it; once `PORT_OUT` is empty a later send succeeds. -/
def Obligations.BusySendFaultsAndWritesNothing : Prop :=
  ∀ (i : Instr) (caller : Agent) (timeout : Option Nat) (s : State), i.wf → i.frame.sender = 0x80 →
    s.stage = .send caller timeout → s.portOpen = true → s.portLock = none → s.portOut ≠ [] →
    ∃ t, exec i s = .next t ∧
      t = { s with stage := .receive, faults := t.faults, ret := some (.raised (.writeWhileBusy i.frame)) } ∧
      (∀ r, r ∈ t.faults ↔ r = .writeWhileBusy i.frame ∨ r ∈ s.faults) ∧
      ∀ j : Instr, j.wf → j.frame.sender = 0x80 →
        exec j { t with portOut := [], stage := .send caller none } =
          .next { t with portOut := encode j, ret := some .ok }

/-- R212, U4: a write timeout leaves some first part of the frame in `PORT_OUT`, records `IoTimeout(write)`, frees
`PORTLOCK`, and every length of that part can occur; the state is then faulted, and `FAULT` gains that record alone
(R219). The length is a draw (log 9). -/
def Obligations.WriteTimeoutLeavesAPrefix : Prop :=
  ∀ (i : Instr) (caller : Agent) (k : Nat) (s : State), i.wf → i.frame.sender = 0x80 →
    s.stage = .send caller (some k) → s.portOpen = true → s.portLock = none → s.portOut = [] →
    ∃ t, exec i s = .next t ∧ t.portOut <+: encode i ∧ t.portOut.length = min k i.wireLen ∧
      (∀ r, r ∈ t.faults ↔ r = .ioTimeout .atWrite ∨ r ∈ s.faults) ∧ faulted t = true ∧
      t = { s with
        stage := .receive, portOut := t.portOut, faults := t.faults, ret := some (.raised (.ioTimeout .atWrite)) }

/-- R215 (a), (b), (c): `SEND` of an ill-formed record, of a frame from another sender than the master, or while the
port is closed, is refused. The spec's own decision D21; the order of the tests is the model's (log 24). -/
def Obligations.ForbiddenSendsAreRefused : Prop :=
  (∀ (f : Frame) (caller : Agent) (timeout : Option Nat) (s : State), f.wf = false →
    (caller = .poll → s.host.poll = .idle) →
    runAction (.send caller f timeout) s = some (.refused .illFormedFrame)) ∧
  (∀ (i : Instr) (caller : Agent) (timeout : Option Nat) (s : State), i.wf → s.stage = .send caller timeout →
    i.frame.sender ≠ 0x80 → exec i s = .refused .senderNotMaster) ∧
  ∀ (i : Instr) (caller : Agent) (timeout : Option Nat) (s : State), i.wf → s.stage = .send caller timeout →
    i.frame.sender = 0x80 → s.portOpen = false → exec i s = .refused .portClosed

/-- The frame of every command frame (R52, R134, R142, R166, R173): what it can change on receive, on dispatch and on
send, whenever it answers a next state. On dispatch the destination register is the sender's controller; on send
`PORT_OUT` is changed only when it was empty. -/
def Obligations.FrameOfEveryCommandFrame : Prop :=
  ∀ (i : Instr) (s t : State), exec i s = .next t →
    match s.stage with
    | .receive =>
      t = { s with rxBuf := s.rxBuf.drop i.wireLen, fr := some i.frame, delivQ := s.delivQ ++ [i.frame] }
    | .dispatch =>
      t = { s with stage := .receive, ret := some .ok, ctrlMap := t.ctrlMap, log := t.log } ∧
        t.ctrlMap.map Prod.fst = s.ctrlMap.map Prod.fst ∧
        (∀ a, a ≠ i.frame.sender → mapGet t.ctrlMap a = mapGet s.ctrlMap a) ∧
        (t.log = s.log ∨ t.log = s.log ++ [.unrouted i.frame] ∧ t.ctrlMap = s.ctrlMap)
    | .send _ _ =>
      t = { s with stage := t.stage, ret := t.ret, portOut := t.portOut, faults := t.faults } ∧
        (t.portOut = s.portOut ∨ s.portOut = [] ∧ t.portOut <+: encode i) ∧ ∀ r ∈ s.faults, r ∈ t.faults

/-! ### The transport -/

/-- R131: a delivery appends its bytes to `PORT_IN` and raises one notification, the spec's own decision D5. -/
def Obligations.LineDeliverAppends : Prop :=
  ∀ (b : Byte) (bs : List Byte) (s : State),
    runAction (.lineDeliver b bs) s =
      some (.next { s with portIn := s.portIn ++ b :: bs, arrivals := s.arrivals + 1 })

/-- R136: a drain is enabled exactly for `1 <= k <= len(PORT_OUT)` and moves the first `k` bytes onto the line;
`TX_BUSY` becomes false when the last byte leaves. `wireOut` is the model's field (log 28); waiting is log 2. -/
def Obligations.LineDrainTakesTheFront : Prop :=
  ∀ (k : Nat) (s : State),
    (1 ≤ k → k ≤ s.portOut.length →
      runAction (.lineDrain k) s =
        some (.next { s with wireOut := s.portOut.take k, portOut := s.portOut.drop k })) ∧
    (k = 0 ∨ s.portOut.length < k → runAction (.lineDrain k) s = none) ∧
    (txBusy { s with portOut := s.portOut.drop k } = true ↔ k < s.portOut.length)

/-- R132, R133, R51: one `RX_ARRIVE` with the default of one extraction takes one notification and all of `PORT_IN`,
appends, makes one `EXTRACT`, delivers its frame, and leaves both arbiters free and every other register as it was.
One notification a delivery, all of `PORT_IN` and one extraction are the spec's own decisions D5 and D6. -/
def Obligations.ArrivalDeliversAtMostOneFrame : Prop :=
  ∀ (id : Nat) (s : State), BetweenSteps s → s.portOpen = true → 0 < s.arrivals → s.params.extracts = .once →
    runAction (.rxArrive id {}) s =
      some (.next { s with
        arrivals := s.arrivals - 1
        portIn := []
        rxBuf := (extract (s.rxBuf ++ s.portIn)).2
        fr := (extract (s.rxBuf ++ s.portIn)).1.map Instr.frame
        delivQ := s.delivQ ++ ((extract (s.rxBuf ++ s.portIn)).1.map Instr.frame).toList
        ret := some .ok })

/-- R132 with `until_none`: the arrival delivers every frame that reading the stream from its head gives, in stream
order (R54), and leaves a head of at most 8 bytes. The parameter is the spec's own decision D6. -/
def Obligations.ArrivalUntilNoneDeliversTheStream : Prop :=
  ∀ (id : Nat) (s : State), BetweenSteps s → s.portOpen = true → 0 < s.arrivals → s.params.extracts = .untilNone →
    ∃ is r, Parses (s.rxBuf ++ s.portIn) is r ∧ r.length ≤ 8 ∧
      runAction (.rxArrive id {}) s =
        some (.next { s with
          arrivals := s.arrivals - 1
          portIn := []
          rxBuf := r
          fr := none
          delivQ := s.delivQ ++ is.map Instr.frame
          ret := some .ok })

/-- R215 (c), R25, R50: an arrival is refused while the port is closed, and waits while no notification is pending or
an arbiter is held. The order of these tests is the model's (log 24). -/
def Obligations.ArrivalIsRefusedOrWaits : Prop :=
  ∀ (id : Nat) (draw : ArriveDraw) (s : State),
    (s.portOpen = false → runAction (.rxArrive id draw) s = some (.refused .portClosed)) ∧
    (s.portOpen = true → s.arrivals = 0 ∨ s.rxLock ≠ none ∨ s.portLock ≠ none →
      runAction (.rxArrive id draw) s = none)

/-- R217 (a), R53: whatever the draws, a pending notification is served by one `RX_ARRIVE`, which takes exactly one
and frees both arbiters. The agenda is the model's (log 1). -/
def Obligations.PendingArrivalIsServed : Prop :=
  ∀ (id : Nat) (draw : ArriveDraw) (rest : List Action) (s : State), BetweenSteps s → s.portOpen = true →
    0 < s.arrivals → faulted s = false → s.agenda = .rxArrive id draw :: rest →
    ∃ t, step s = .next t ∧ t.arrivals + 1 = s.arrivals ∧ BetweenSteps t ∧ t.agenda = rest

/-- R212 for `read`, R133: a read timeout leaves `RXBUF` and `PORT_IN` unchanged, records `IoTimeout(read)`, takes the
notification and frees both arbiters. -/
def Obligations.ReadTimeoutKeepsTheBuffers : Prop :=
  ∀ (id : Nat) (draw : ArriveDraw) (s : State), BetweenSteps s → s.portOpen = true → 0 < s.arrivals →
    draw.readTimeout = true →
    ∃ t, runAction (.rxArrive id draw) s = some (.next t) ∧
      t = { s with arrivals := s.arrivals - 1, faults := t.faults, ret := some (.raised (.ioTimeout .atRead)) } ∧
      ∀ r, r ∈ t.faults ↔ r = .ioTimeout .atRead ∨ r ∈ s.faults

/-- R138, R213: where the oracle may fire, a decode error clears `RXBUF` and `FR` and is logged; `FAULT` and the other
registers are as they were. The frames already pushed stay: they are the first `d.pushed` of the stream's frames, at
most one where an arrival makes one extraction (R132, D6). By default the oracle never fires (D13; the draw and its
parameter: log 11). -/
def Obligations.DecodeErrorIsAbsorbed : Prop :=
  (∀ (id : Nat) (d : DecodeDraw) (s : State), BetweenSteps s → s.portOpen = true → 0 < s.arrivals →
    s.params.decodeFault = true →
    ∃ is r, Parses (s.rxBuf ++ s.portIn) is r ∧
      runAction (.rxArrive id { decodeFault := some d }) s =
        some (.next { s with
          arrivals := s.arrivals - 1
          portIn := []
          rxBuf := []
          fr := none
          delivQ := s.delivQ ++
            (is.take (match s.params.extracts with
              | .once => min d.pushed 1
              | .untilNone => d.pushed)).map Instr.frame
          log := s.log ++ [.decodeError d.info]
          ret := some .ok })) ∧
  ∀ (id : Nat) (draw : ArriveDraw) (s : State), s.params.decodeFault = false →
    runAction (.rxArrive id draw) s = runAction (.rxArrive id { draw with decodeFault := none }) s

/-- R242: opening the port sets `PORT_OPEN`, or raises `IoTimeout(open)` and leaves it as it was (D15). R242 opens the
port once; that it may be opened again, and that a timeout then leaves it open, is the model's choice (log 30). -/
def Obligations.OpenPortOpensOrTimesOut : Prop :=
  ∀ s : State, s.host.poll = .idle →
    runAction (.openPort false) s = some (.next { s with portOpen := true, ret := some .ok }) ∧
    ∃ t, runAction (.openPort true) s = some (.next t) ∧
      t = { s with faults := t.faults, ret := some (.raised (.ioTimeout .atOpen)) } ∧
      ∀ r, r ∈ t.faults ↔ r = .ioTimeout .atOpen ∨ r ∈ s.faults

/-- R240: the registers after reset, at `State.reset` and after the reset operation from any state. The values are the
spec's own decision D15; what a reset leaves alone is log 29. -/
def Obligations.ResetValuesOfTheRegisters : Prop :=
  ∀ s : State, ∀ t ∈ [State.reset, resetBlock s],
    t.rxBuf = [] ∧ t.portIn = [] ∧ t.portOut = [] ∧ t.fr = none ∧ t.rxLock = none ∧ t.portLock = none ∧
      t.ctrlMap = [] ∧ t.delivQ = [] ∧ t.arrivals = 0 ∧ t.faults = [] ∧ t.log = [] ∧ t.portOpen = false

/-! ### The bus -/

/-- R167, R241: `REGISTER` refuses a reserved address, faults on a present one with the table unchanged, and else
appends a new controller last. The spec's own decisions D12, D19 and D26; a new controller as handler: log 36. -/
def Obligations.RegisterAppendsOrFaults : Prop :=
  ∀ (a : Byte) (s : State), s.host.poll = .idle →
    (a = 0x80 ∨ a = 0xF0 → runAction (.register .poll a) s = some (.refused .reservedAddress)) ∧
    (a ≠ 0x80 → a ≠ 0xF0 → mapGet s.ctrlMap a = none →
      runAction (.register .poll a) s =
        some (.next { s with
          ctrlMap := s.ctrlMap ++
            [(a, ⟨a, none, none, false, false, none, false, none, s.params.initOhms, s.params.initJumper⟩)]
          ret := some .ok })) ∧
    (a ≠ 0x80 → a ≠ 0xF0 → mapGet s.ctrlMap a ≠ none →
      ∃ t, runAction (.register .poll a) s = some (.next t) ∧
        t = { s with faults := t.faults, ret := some (.raised (.duplicateAddress a)) } ∧
        ∀ r, r ∈ t.faults ↔ r = .duplicateAddress a ∨ r ∈ s.faults)

/-- R168: `UNREGISTER` removes the entry and keeps the order of the others; it has no effect on the table for an
absent address; frames of that sender are then unrouted. No effect on an absent address is the spec's own decision D12. -/
def Obligations.UnregisterRemovesOneEntry : Prop :=
  ∀ (a : Byte) (s : State), s.host.poll = .idle →
    ∃ m, runAction (.unregister .poll a) s = some (.next { s with ctrlMap := m, ret := some .ok }) ∧
      m = s.ctrlMap.filter (fun e => decide (e.1 ≠ a)) ∧ mapGet m a = none ∧
      (∀ b, b ≠ a → mapGet m b = mapGet s.ctrlMap b) ∧ (mapGet s.ctrlMap a = none → m = s.ctrlMap)

/-- R215 (e), R171: the bus operations are refused to every agent but the poll/dispatch agent (D21). That this holds
at a reserved address too, where R215 (d) would refuse it as well, is the model's order of the tests (log 24). -/
def Obligations.BusOperationsNeedThePollAgent : Prop :=
  ∀ (caller : Agent) (a : Byte) (draw : PollDraw) (s : State), caller ≠ .poll →
    runAction (.dispatch caller) s = some (.refused .wrongAgent) ∧
    runAction (.register caller a) s = some (.refused .wrongAgent) ∧
    runAction (.unregister caller a) s = some (.refused .wrongAgent) ∧
    runAction (.poll caller draw) s = some (.refused .wrongAgent)

/-- R198 (2), R81: the broadcast step of a tick, and the whole of a tick without a dirty controller, puts
`F0 80 04 1B 6F` into an empty `PORT_OUT` and ends the tick. Two steps a tick is log 18. -/
def Obligations.PollEndsWithTheBroadcastGet : Prop :=
  ∀ (draw : PollDraw) (s : State), s.portOpen = true → s.portLock = none → s.portOut = [] → draw.write = none →
    s.host.poll = .broadcast ∨ firstDirty s.ctrlMap = none →
    runAction (.poll .poll draw) s =
      some (.next { s with
        portOut := [0xF0, 0x80, 0x04, 0x1B, 0x6F]
        host := { s.host with poll := .idle }
        stage := .receive
        ret := some .ok })

/-- R187, R198 (1): the first step of a tick with a dirty controller makes that controller's updates, sends one Set
with its target into an empty `PORT_OUT`, stores the target, and leaves the broadcast to come. Two steps a tick is log 18; the
draws of the generators are log 17. -/
def Obligations.PollServicesTheFirstDirtyController : Prop :=
  ∀ (draw : PollDraw) (s : State) (a : Byte) (c c' : Controller), s.portOpen = true → s.portLock = none →
    s.portOut = [] → draw.write = none → s.host.poll = .idle → firstDirty s.ctrlMap = some (a, c) →
    applyPending s.params s.host draw c = some c' →
    runAction (.poll .poll draw) s =
      some (.next { s with
        ctrlMap := mapModify s.ctrlMap a (fun _ => c')
        portOut := encode (.set c'.address 0x80 c'.jumperTarget (ohmToByte s.params c'.requiredOhms)
          s.params.setDifficulty s.params.setStatus)
        host := { storeSet ⟨c'.address, ohmToByte s.params c'.requiredOhms, c'.jumperTarget⟩ s.host with
          poll := .broadcast }
        stage := .receive
        ret := some .ok })

/-- R250, U5, U6: where the Set of a tick finds `PORT_OUT` busy, the record is in `FAULT`, `PORT_OUT` keeps its bytes,
and by the default parameters the tick ends with the store unwritten and the updates kept (the parameters:
log 18). Where the broadcast Get of a tick finds it busy, `WriteWhileBusy(GET 0xF0, 0x80)` is in `FAULT`, `PORT_OUT`
keeps its bytes, and the tick ends, whatever the parameters (P3 variant A; log 18). -/
def Obligations.BusySetEndsTheTick : Prop :=
  (∀ (draw : PollDraw) (s : State) (a : Byte) (c c' : Controller), s.portOpen = true → s.portLock = none →
    s.portOut ≠ [] → s.host.poll = .idle → firstDirty s.ctrlMap = some (a, c) →
    applyPending s.params s.host draw c = some c' → s.params.storeOnFault = false →
    s.params.restoreOnFault = false → s.params.broadcastAfterFault = false →
    ∃ t f, runAction (.poll .poll draw) s = some (.next t) ∧
      f = (Instr.set c'.address 0x80 c'.jumperTarget (ohmToByte s.params c'.requiredOhms) s.params.setDifficulty
        s.params.setStatus).frame ∧
      (∀ r, r ∈ t.faults ↔ r = .writeWhileBusy f ∨ r ∈ s.faults) ∧
      t = { s with
        ctrlMap := mapModify s.ctrlMap a (fun _ => c')
        faults := t.faults
        stage := .receive
        ret := some (.raised (.writeWhileBusy f)) }) ∧
  ∀ (draw : PollDraw) (s : State), s.portOpen = true → s.portLock = none → s.portOut ≠ [] →
    s.host.poll = .broadcast ∨ firstDirty s.ctrlMap = none →
    ∃ t, runAction (.poll .poll draw) s = some (.next t) ∧
      (∀ r, r ∈ t.faults ↔ r = .writeWhileBusy (Instr.get 0xF0 0x80).frame ∨ r ∈ s.faults) ∧
      t = { s with
        host := { s.host with poll := .idle }
        faults := t.faults
        stage := .receive
        ret := some (.raised (.writeWhileBusy (Instr.get 0xF0 0x80).frame)) }

/-! ### The host -/

/-- R192, R187, R189, R190, R196, V10: the updates of `performPendingWork` clear every pending item, in the order of
R187, and change nothing but the pending items, the required resistance and the jumper target. `o` and `j` are those
two after the first test, the reload of the persisted target; a later test replaces them or leaves them. That a target
synthesized by the no-op collaborator has 3 to 5 bits is log 42; the draws are log 17. -/
def Obligations.PendingWorkClearsWhatItActsOn : Prop :=
  ∀ (p : Config.Params) (h : HostSide) (draw : PollDraw) (c c' : Controller), applyPending p h draw c = some c' →
    dirty c' = false ∧
    c' = { c with
      needsFreshTarget := false, jumperBreak := none, resistorBreak := false, pendingAutoRestore := none
      requiredOhms := c'.requiredOhms, jumperTarget := c'.jumperTarget } ∧
    (∃ o j,
      (c.needsFreshTarget = false → o = c.requiredOhms ∧ j = c.jumperTarget) ∧
      (c.needsFreshTarget = true →
        (∀ t, mapGet h.store c.address = some t → o = byteToOhm t.resistorByte ∧ j = t.jumperByte) ∧
        (mapGet h.store c.address = none → p.noopPersistence = false → o = c.requiredOhms ∧ j = c.jumperTarget) ∧
        (mapGet h.store c.address = none → p.noopPersistence = true →
          o = byteToOhm 0x00 ∧ 3 ≤ popcount j ∧ popcount j ≤ 5)) ∧
      (c.jumperBreak = none → c'.jumperTarget = j) ∧
      (∀ b, c.jumperBreak = some (some b) → c'.jumperTarget = b) ∧
      (c.jumperBreak = some none → 3 ≤ popcount c'.jumperTarget ∧ popcount c'.jumperTarget ≤ 5) ∧
      (∀ ohms, c.pendingAutoRestore = some ohms → c'.requiredOhms = ohms) ∧
      (c.pendingAutoRestore = none → c.resistorBreak = false → c'.requiredOhms = o) ∧
      (c.pendingAutoRestore = none → c.resistorBreak = true →
        c'.requiredOhms ∈ Config.nominalOhms ∧ c'.requiredOhms ≠ o)) ∧
    (dirty c = false → c' = c)

/-- R192: dirty exactly when one of the four pending items is set. -/
def Obligations.DirtyIffSomethingPends : Prop :=
  ∀ c : Controller, dirty c = true ↔
    c.needsFreshTarget = true ∨ c.jumperBreak ≠ none ∨ c.resistorBreak = true ∨ c.pendingAutoRestore ≠ none

/-- R189, R190, V7, V8: what the two generators answer, that they answer once something acceptable is drawn, and that
182 bytes are acceptable jumper patterns. The draws are the model's (log 17). -/
def Obligations.GeneratorsAnswerAcceptedDraws : Prop :=
  (∀ d b, generateJumper d = some b → b ∈ d ∧ 3 ≤ popcount b ∧ popcount b ≤ 5) ∧
  (∀ d, (∃ b ∈ d, 3 ≤ popcount b ∧ popcount b ≤ 5) → (generateJumper d).isSome) ∧
  (∀ cur d ohms, generateResistor cur d = some ohms → ohms ∈ d ∧ ohms ∈ Config.nominalOhms ∧ ohms ≠ cur) ∧
  (∀ cur d, (∃ ohms ∈ d, ohms ∈ Config.nominalOhms ∧ ohms ≠ cur) → (generateResistor cur d).isSome) ∧
  ((List.range 256).filter fun n => jumperAccepted (BitVec.ofNat 8 n)).length = 182

/-- R191, V9: under truncation `ohmToByte` stays below 256 and both conversions are monotonic; going to a code and
back never exceeds the value and falls short of it by less than one code step. Truncation is the spec's own decision D24. -/
def Obligations.OhmConversionsAreMonotonic : Prop :=
  (∀ x, 256 * x / (x + 10000) < 256) ∧
  (∀ x y, x ≤ y → (ohmToByteTrunc x).toNat ≤ (ohmToByteTrunc y).toNat) ∧
  (∀ b c : Byte, b.toNat ≤ c.toNat → byteToOhm b ≤ byteToOhm c) ∧
  (∀ x, byteToOhm (ohmToByteTrunc x) ≤ x) ∧
  ∀ x, x * (255 - (ohmToByteTrunc x).toNat) < 10000 * ((ohmToByteTrunc x).toNat + 1)

/-- R182, R193: Online within 2 seconds of the last acknowledgment and Offline beyond, never before the first one;
consumption is the required resistance exactly when Online with both status bits clear. At exactly 2 seconds the
answer is free (U7, log 14); the nanosecond is the model's unit (log 15). -/
def Obligations.OnlineAndConsumption : Prop :=
  ∀ (now t : Nat) (c : Controller),
    (c.everConnected = false → online now c = false) ∧
    (c.everConnected = true → c.lastUpdated = some t → now - t < 2000000000 → online now c = true) ∧
    (c.everConnected = true → c.lastUpdated = some t → 2000000000 < now - t → online now c = false) ∧
    (c.lastStatus = none → consumption now c = 0) ∧
    (∀ pl, c.lastStatus = some pl →
      consumption now c =
        if online now c = true ∧ pl.status.getLsbD 5 = false ∧ pl.status.getLsbD 6 = false then c.requiredOhms
        else 0)

/-- R194, R195: a target set is visible at once, under its own address alone; the address is dirty; nothing durable is
written; a flush in progress goes on with what it had to save and knows that the address was set again. As an operation
of the poll agent: log 19. -/
def Obligations.StoreSetIsVisibleAtOnce : Prop :=
  ∀ (t : UnitTarget) (s : State), s.host.poll = .idle →
    ∃ h, runAction (.storeSet t) s = some (.next { s with host := h }) ∧ mapGet h.store t.address = some t ∧
      (∀ a, a ≠ t.address → mapGet h.store a = mapGet s.host.store a) ∧
      (∀ a, a ∈ h.dirty ↔ a = t.address ∨ a ∈ s.host.dirty) ∧ h.saved = s.host.saved ∧ h.now = s.host.now ∧
      h.log = s.host.log ∧ h.poll = s.host.poll ∧ (s.host.flush = none → h.flush = none) ∧
      ∀ fl, s.host.flush = some fl →
        ∃ again, h.flush = some ⟨fl.todo, again⟩ ∧ ∀ x, x ∈ again ↔ x = t.address ∨ x ∈ fl.setAgain

/-- R195, C12: the flush worker starts with a snapshot of the dirty set; a save takes an address out of the dirty set
exactly when it succeeded and the address was not set again since the snapshot; it saves the value the map holds
then; a failure is logged. The steps of the worker are the model's (log 20), and so are the rising order of the saves
(log 41) and what the logged entry holds (log 43). -/
def Obligations.FlushKeepsUnsavedAddressesDirty : Prop :=
  ∀ (ok : Bool) (s : State),
    (s.host.flush = none → s.host.dirty ≠ [] →
      runAction (.flush ok) s = some (.next { s with host := { s.host with flush := some ⟨s.host.dirty, []⟩ } })) ∧
    (s.host.flush = none → s.host.dirty = [] → runAction (.flush ok) s = none) ∧
    ∀ a rest again, s.host.flush = some ⟨a :: rest, again⟩ →
      ∃ h, runAction (.flush ok) s = some (.next { s with host := h }) ∧ h.store = s.host.store ∧
        h.now = s.host.now ∧ h.poll = s.host.poll ∧
        (∀ x, x ∈ h.dirty ↔ x ∈ s.host.dirty ∧ ¬ (x = a ∧ ok = true ∧ a ∉ again)) ∧
        h.log = (if ok then s.host.log else s.host.log ++ [.persistFailure a]) ∧
        (rest = [] → h.flush = none) ∧ (rest ≠ [] → h.flush = some ⟨rest, again⟩) ∧
        (ok = false ∨ s.params.noopPersistence = true → h.saved = s.host.saved) ∧
        (ok = true → s.params.noopPersistence = false → ∀ t, mapGet s.host.store a = some t →
          mapGet h.saved a = some t ∧ ∀ b, b ≠ a → mapGet h.saved b = mapGet s.host.saved b)

/-! ### The machine -/

/-- A step whose first operation is an arrival runs the frame it fetches: the state handed to `exec` is the one with
the notification and the port's bytes taken, `RXLOCK` held and the noise dropped; after it `RXLOCK` is free and the
arrival returns (R57, R132). The agenda is the model's (log 1, log 2). -/
def Obligations.StepRunsTheReceivedFrame : Prop :=
  ∀ (s : State) (id : Nat) (rest : List Action) (i : Instr) (tail : List Byte),
    s.agenda = .rxArrive id {} :: rest → faulted s = false → s.portOpen = true → 0 < s.arrivals →
    s.rxLock = none → s.portLock = none → s.params.extracts = .once →
    decode (resync (s.rxBuf ++ s.portIn)) = .ok (i, tail) →
    step s =
      match exec i { s with
        agenda := rest
        arrivals := s.arrivals - 1
        portIn := []
        rxBuf := resync (s.rxBuf ++ s.portIn)
        rxLock := some (.arrival id)
        stage := .receive } with
      | .next t => .next { t with rxLock := none, ret := some .ok }
      | o => o

/-- A step whose first operation is a `DISPATCH` or a `SEND` runs the frame popped or given (R134, R166). The agenda
is the model's (log 1, log 2). -/
def Obligations.StepRunsTheDispatchedOrSentFrame : Prop :=
  (∀ (s : State) (rest : List Action) (i : Instr) (q : List Frame), i.wf → s.agenda = .dispatch .poll :: rest →
    faulted s = false → s.host.poll = .idle → s.delivQ = i.frame :: q →
    step s = exec i { s with agenda := rest, delivQ := q, stage := .dispatch }) ∧
  ∀ (s : State) (rest : List Action) (i : Instr) (caller : Agent) (timeout : Option Nat), i.wf →
    s.agenda = .send caller i.frame timeout :: rest → faulted s = false →
    (caller = .poll → s.host.poll = .idle) → s.portLock = none →
    step s = exec i { s with agenda := rest, stage := .send caller timeout }

/-- The machine's invariant is kept by every step, from every state that has it: both arbiters free, `CTRL_MAP` with
one controller an address and none at a reserved one, every record well-formed, `FAULT` without repeats, the store's
tables canonical (R14, R21, R24, R53, R167, R194, R195). -/
def Obligations.StepKeepsTheInvariant : Prop := ∀ s t : State, Inv s → step s = .next t → Inv t

/-- The invariant and the empty port hold after reset (R240; the model's own fields: log 33). -/
def Obligations.ResetHasTheInvariant : Prop := Inv State.reset ∧ OneFrameOut State.reset

/-- R134, R140: no frame pipelining. `PORT_OUT` never holds anything but consecutive bytes of one frame sent by the
master, in every step. -/
def Obligations.PortOutHoldsAtMostOneFrame : Prop :=
  ∀ s t : State, OneFrameOut s → step s = .next t → OneFrameOut t ∧ t.portOut.length ≤ 9

/-- R227, R24, R27, R28: without a reset no step takes a record out of `FAULT` or an event out of `LOG`; and no step
at all changes the parameters (log 7). -/
def Obligations.FaultAndLogOnlyGrow : Prop :=
  ∀ s t : State, step s = .next t →
    t.params = s.params ∧ (.reset ∉ s.agenda → s.faults <+: t.faults ∧ s.log <+: t.log)

/-- R220, R212: after an `IoTimeout` no operation but a reset has a step; with a reset on the agenda the step is that
reset, and the block is no longer faulted. That the step answers a fault is the model's choice (log 10). -/
def Obligations.TimeoutStopsTheMachineUntilReset : Prop :=
  ∀ s : State, faulted s = true →
    (.reset ∉ s.agenda → step s = .fault .awaitingReset) ∧
    (.reset ∈ s.agenda → ∃ g, step s = .next (resetBlock { s with agenda := g }) ∧
      faulted (resetBlock { s with agenda := g }) = false)

/-- The frame of an opcode-table word placed by `withFetchWord` is what the next step runs (log 23). -/
def Obligations.PlacedWordIsRunNext : Prop :=
  ∀ (s : State) (nbits w : Nat) (i : Instr), s.params.extracts = .once → decodeTableWord nbits w = some i →
    ∃ t, step (s.withFetchWord nbits w) = .next t ∧ t.fr = some i.frame ∧ t.delivQ = s.delivQ ++ [i.frame] ∧
      t.agenda = s.agenda ∧ t.arrivals = s.arrivals ∧ t.ret = some .ok ∧ t.ctrlMap = s.ctrlMap ∧ t.host = s.host

/-- R243, R196, R240: the host's boot, from any state whose store is in form, a faulted one too, loads every row of the
collaborator into a new store and leaves all else of the host but a poll tick in progress, resets the block, opens the
port and registers one new controller for each unit address, in order, without a fault. Between poll ticks of a state
that is not faulted its first three steps are the load, the reset and the opening. The order is the spec's own decision
D27; where the load has to wait, the reset comes first (log 38). That the no-op collaborator has no row, and that a new
store is clean with no flush in progress, is log 21. -/
def Obligations.BootRegistersEveryUnit : Prop :=
  ∀ s : State, HostOk s.host →
    (∃ t : State,
      Sys2Proof.core.run (bootAgenda s.params).length ({ s with agenda := bootAgenda s.params } : State) = .next t ∧
        t.portOpen = true ∧ t.faults = [] ∧ t.agenda = [] ∧ t.params = s.params ∧ Inv t ∧
        (t.ctrlMap = (unitRange s.params).map fun a => (a, freshController s.params a)) ∧
        t.rxBuf = [] ∧ t.portIn = [] ∧ t.portOut = [] ∧ t.fr = none ∧ t.delivQ = [] ∧ t.arrivals = 0 ∧ t.log = [] ∧
        (∀ a, mapGet t.host.store a = if s.params.noopPersistence then none else mapGet s.host.saved a) ∧
        t.host = { s.host with store := t.host.store, dirty := [], flush := none, poll := .idle }) ∧
    (faulted s = false → s.host.poll = .idle →
      ∃ loaded reset opened registers,
        bootAgenda s.params = .loadAll :: .reset :: .openPort false :: registers ∧
          loaded = { s with
            host := loadAll s.params s.host, agenda := .reset :: .openPort false :: registers } ∧
          reset = resetBlock { loaded with agenda := .openPort false :: registers } ∧
          opened = { reset with portOpen := true, ret := some .ok, agenda := registers } ∧
          step { s with agenda := bootAgenda s.params } = .next loaded ∧ step loaded = .next reset ∧
          step reset = .next opened)

/-- R74, R79: a few words written out from the opcode table's encodings decode to their instructions. -/
def Obligations.WrittenWordsDecode : Prop :=
  decode [0x80, 0x05, 0x00, 0x88, 0x94] = .ok (.ack 0x80 0x05, []) ∧
  decode [0x80, 0x05, 0x01, 0x89, 0x94] = .ok (.nack 0x80 0x05, []) ∧
  decode [0x80, 0x05, 0x03, 0x68, 0xF2, 0x04, 0x80, 0x9B, 0x8E] =
    .ok (.set 0x80 0x05 0x68 0xF2 0x04 0x80, []) ∧
  decode [0x05, 0x80, 0x04, 0xA1, 0xD0] = .ok (.get 0x05 0x80, []) ∧
  decode [0x80, 0x05, 0x02, 0x8A, 0x94] = .ok (.unknown 0x02 0x80 0x05, [])
end

