-- ==== Sys2Proof/Laws/Codec.lean ====
section
/-! SUPPORT. The codec, said once per function: byte order, lengths, what the decoder answers, what
resynchronisation drops, and how instructions and Frame records correspond. -/

namespace Sys2Proof

/-! ### The CRC word (R41) -/

@[simp] theorem trailerWord_lo8_hi8 (w : Word) : trailerWord (lo8 w) (hi8 w) = w := by
  apply BitVec.eq_of_getLsbD_eq
  intro i hi
  simp only [trailerWord, lo8, hi8, BitVec.getLsbD_or, BitVec.getLsbD_setWidth, BitVec.getLsbD_extractLsb',
    BitVec.getLsbD_shiftLeft, hi, decide_true, Bool.true_and]
  by_cases h : i < 8
  · simp [h]
  · simp [h, show i - 8 < 8 by omega, show 8 + (i - 8) = i by omega]
    exact fun _ => by omega

theorem crc16_append (s t : List Byte) : crc16 (s ++ t) = t.foldl crcByte (crc16 s) := by
  simp [crc16, List.foldl_append]

/-! ### Kinds and lengths -/

/-- What `kind_of` answers, code by code (R74). -/
theorem kindOf_eq_code (c : Byte) :
    match kindOf c with
    | .ack => c = Config.codeAck
    | .nack => c = Config.codeNack
    | .set => c = Config.codeSet
    | .get => c = Config.codeGet
    | .unknown => isUnknownCode c = true := by
  by_cases h0 : c = Config.codeAck
  · subst h0; exact rfl
  by_cases h1 : c = Config.codeNack
  · subst h1; exact rfl
  by_cases h3 : c = Config.codeSet
  · subst h3; exact rfl
  by_cases h4 : c = Config.codeGet
  · subst h4; exact rfl
  · have hk : kindOf c = .unknown := by simp [kindOf, h0, h1, h3, h4]
    rw [hk]
    simp [isUnknownCode, h0, h1, h3, h4]

theorem isUnknownCode_ne {c : Byte} (h : isUnknownCode c = true) :
    c ≠ Config.codeAck ∧ c ≠ Config.codeNack ∧ c ≠ Config.codeSet ∧ c ≠ Config.codeGet := by
  simpa [isUnknownCode, and_assoc] using h

theorem kindOf_unknown_iff (c : Byte) : kindOf c = .unknown ↔ isUnknownCode c = true := by
  constructor
  · intro h
    simpa [h] using kindOf_eq_code c
  · intro h
    obtain ⟨h0, h1, h3, h4⟩ := isUnknownCode_ne h
    simp [kindOf, h0, h1, h3, h4]

theorem kindOf_set_iff (c : Byte) : kindOf c = .set ↔ c = Config.codeSet := by
  constructor
  · intro h
    simpa [h] using kindOf_eq_code c
  · rintro rfl
    rfl

theorem isUnknownCode_ne_set {c : Byte} (h : isUnknownCode c = true) : c ≠ Config.codeSet := by
  exact (isUnknownCode_ne h).2.2.1

theorem flen_of_ne {c : Byte} (h : c ≠ Config.codeSet) : flen c = 3 := by simp [flen, h, Config.headerLen]

@[simp] theorem flen_set : flen Config.codeSet = 7 := rfl

/-- The frame length is 3 or 7 (R110). -/
theorem flen_cases (c : Byte) : flen c = 3 ∨ flen c = 7 := by
  by_cases h : c = Config.codeSet
  · exact .inr (h ▸ flen_set)
  · exact .inl (flen_of_ne h)

theorem wireLen_cases (i : Instr) : i.wireLen = 5 ∨ i.wireLen = 9 := by
  rcases flen_cases i.frame.code with h | h <;> simp [Instr.wireLen, h, Config.trailerLen]

/-- The body of a well-formed instruction has the frame length of its code (R70). -/
theorem body_length (i : Instr) (h : i.wf) : i.frame.body.length = flen i.frame.code := by
  cases i with
  | unknown code dest sender =>
    simpa [Instr.frame, Frame.header, Frame.body] using (flen_of_ne (isUnknownCode_ne_set h)).symm
  | _ => rfl

/-- A well-formed instruction's encoding has its wire length (R70). -/
theorem encode_length (i : Instr) (h : i.wf) : (encode i).length = i.wireLen := by
  simp [encode, trailer, body_length i h, Instr.wireLen, Config.trailerLen]

/-! ### Instructions and Frame records (R14) -/

theorem frame_wf (i : Instr) (h : i.wf) : i.frame.wf := by
  cases i with
  | unknown code dest sender =>
    simpa [Instr.frame, Frame.header, Frame.wf] using isUnknownCode_ne_set h
  | _ => rfl

theorem frame_instr? (i : Instr) (h : i.wf) : i.frame.instr? = some i := by
  cases i with
  | unknown code dest sender =>
    simp [Frame.instr?, Frame.kind, Instr.frame, Frame.header, (kindOf_unknown_iff code).2 h]
  | _ => rfl

/-- A record that an instruction stands for is that instruction's record, and the instruction is well-formed. -/
theorem instr?_some {f : Frame} {i : Instr} (h : f.instr? = some i) : i.frame = f ∧ i.wf := by
  obtain ⟨dest, sender, code, payload⟩ := f
  have hc := kindOf_eq_code code
  simp only [Frame.instr?, Frame.kind] at h
  cases hk : kindOf code <;> cases payload <;> simp only [hk, Option.some.injEq, reduceCtorEq] at h hc <;>
    subst h <;> simp_all [Instr.frame, Frame.header, Instr.wf]

/-- A Frame record stands for an instruction exactly when it is well-formed (R14, R82). -/
theorem instr?_isSome_iff (f : Frame) : f.instr?.isSome ↔ f.wf := by
  constructor
  · intro h
    obtain ⟨i, hi⟩ := Option.isSome_iff_exists.1 h
    obtain ⟨rfl, hw⟩ := instr?_some hi
    exact frame_wf i hw
  · intro h
    obtain ⟨dest, sender, code, payload⟩ := f
    have hs := kindOf_set_iff code
    simp only [Frame.wf, beq_iff_eq] at h
    simp only [Frame.instr?, Frame.kind]
    cases hk : kindOf code <;> cases payload <;> simp_all

/-! ### The fields of a decoded frame (R112) -/

theorem instrOf_wf (w : List Byte) : (instrOf w).wf := by
  have hc := kindOf_eq_code (byteAt w 2)
  unfold instrOf
  cases hk : kindOf (byteAt w 2) <;> simp_all [Instr.wf]

theorem instrOf_frame (w : List Byte) : (instrOf w).frame = fields w := by
  have hc := kindOf_eq_code (byteAt w 2)
  unfold instrOf fields
  cases hk : kindOf (byteAt w 2) <;> simp only [hk] at hc
  case unknown => simp [Instr.frame, Frame.header, isUnknownCode_ne_set hc]
  all_goals simp [Instr.frame, Frame.header, hc] <;> decide

theorem byteAt_take {w : List Byte} {n k : Nat} (h : k < n) : byteAt (w.take n) k = byteAt w k := by
  simp [byteAt, List.getD_eq_getElem?_getD, h]

theorem instrOf_code (w : List Byte) : (instrOf w).frame.code = byteAt w 2 := by
  rw [instrOf_frame]; rfl

/-! ### The decoder (R113) -/

/-- What the decoder answers when it finds a frame. -/
theorem decode_ok {b rest : List Byte} {i : Instr} (h : decode b = .ok (i, rest)) :
    flen (byteAt b 2) + 2 ≤ b.length ∧
      crc16 (b.take (flen (byteAt b 2))) =
        trailerWord (byteAt b (flen (byteAt b 2))) (byteAt b (flen (byteAt b 2) + 1)) ∧
      i = instrOf (b.take (flen (byteAt b 2))) ∧ rest = b.drop (flen (byteAt b 2) + 2) := by
  unfold decode at h
  split at h
  · simp at h
  · simp only at h
    split at h
    · simp at h
    · split at h
      · simp at h
      · rename_i _ h2 h3
        simp only [Except.ok.injEq, Prod.mk.injEq] at h
        exact ⟨Nat.le_of_not_lt h2, Decidable.not_not.1 h3, h.1.symm, h.2.symm⟩

theorem decode_ok_wf {b rest : List Byte} {i : Instr} (h : decode b = .ok (i, rest)) : i.wf :=
  (decode_ok h).2.2.1 ▸ instrOf_wf _

/-- The rest is what stands behind the frame's wire length. -/
theorem decode_ok_rest {b rest : List Byte} {i : Instr} (h : decode b = .ok (i, rest)) :
    rest = b.drop i.wireLen ∧ i.wireLen ≤ b.length := by
  obtain ⟨h1, -, rfl, rfl⟩ := decode_ok h
  have h3 : 2 < flen (byteAt b 2) := by rcases flen_cases (byteAt b 2) with e | e <;> omega
  simp only [Instr.wireLen, instrOf_code, byteAt_take h3, Config.trailerLen]
  exact ⟨trivial, h1⟩

/-- A byte is dropped only from a buffer of at least 5 bytes (R115). -/
theorem decode_mismatch_length {b : List Byte} (h : decode b = .error .crcMismatch) : 5 ≤ b.length := by
  unfold decode at h
  split at h
  · simp at h
  · simp only at h
    split at h
    · simp at h
    · rcases flen_cases (byteAt b 2) with e | e <;> omega

/-! ### Resynchronisation (R113 step 5) -/

theorem resync_of_mismatch {x : Byte} {b : List Byte} (h : decode (x :: b) = .error .crcMismatch) :
    resync (x :: b) = resync b := by
  rw [resync, h]

theorem resync_of_no_mismatch {b : List Byte} (h : decode b ≠ .error .crcMismatch) : resync b = b := by
  cases b with
  | nil => rfl
  | cons x b =>
    rw [resync]
    split
    · contradiction
    · rfl

/-- Only bytes at the front are dropped (R114). -/
theorem resync_suffix (b : List Byte) : resync b <:+ b := by
  induction b with
  | nil => exact List.suffix_refl _
  | cons x b ih =>
    by_cases h : decode (x :: b) = .error .crcMismatch
    · rw [resync_of_mismatch h]
      exact ih.trans (List.suffix_cons x b)
    · rw [resync_of_no_mismatch h]

/-- Resynchronisation ends at a head that is short or a frame (R116). -/
theorem decode_resync (b : List Byte) : decode (resync b) ≠ .error .crcMismatch := by
  induction b with
  | nil => decide
  | cons x b ih =>
    by_cases h : decode (x :: b) = .error .crcMismatch
    · rwa [resync_of_mismatch h]
    · rwa [resync_of_no_mismatch h]

theorem resync_resync (b : List Byte) : resync (resync b) = resync b := resync_of_no_mismatch (decode_resync b)

/-! ### EXTRACT -/

/-- What `EXTRACT` answers: a frame with the bytes behind it, or nothing with the resynchronised buffer. -/
theorem extract_cases (b : List Byte) :
    (∃ i rest, decode (resync b) = .ok (i, rest) ∧ extract b = (some i, rest)) ∨
      (∃ r, decode (resync b) = .error r ∧ r ≠ .crcMismatch ∧ extract b = (none, resync b)) := by
  unfold extract
  cases h : decode (resync b) with
  | ok p => exact .inl ⟨p.1, p.2, rfl, rfl⟩
  | error r => exact .inr ⟨r, rfl, fun e => decode_resync b (e ▸ h), rfl⟩

/-- The buffer after `EXTRACT` is a suffix of the buffer before (R116 d). -/
theorem extract_suffix (b : List Byte) : (extract b).2 <:+ b := by
  rcases extract_cases b with ⟨i, rest, h, e⟩ | ⟨r, -, -, e⟩
  · rw [e, (decode_ok_rest h).1]
    exact (List.drop_suffix _ _).trans (resync_suffix b)
  · rw [e]
    exact resync_suffix b

/-! ### ENCODE as writes into `OUT` (R6, R111) -/

/-- `ENCODE` of a Set is the sequence of writes of R111 into a buffer of 9 bytes. -/
theorem encode_set_writes (dest sender analog digit difficulty status : Byte) :
    let body := [dest, sender, Config.codeSet, analog, digit, difficulty, status]
    memWrite (memWrite (memWrite (List.replicate 9 0) 0 [dest, sender, Config.codeSet]) 3
        [analog, digit, difficulty, status]) 7 [lo8 (crc16 body), hi8 (crc16 body)] =
      encode (.set dest sender analog digit difficulty status) := rfl

/-- A read inside the buffer gives the bytes at its offsets (R6). -/
theorem memRead_eq {b : List Byte} {addr n : Nat} (h : addr + n ≤ b.length) :
    memRead b addr n = some ((b.drop addr).take n) := by
  simp [memRead, h]

end Sys2Proof
end

