-- ==== Sys2Proof/Laws/State.lean ====
section
/-! SUPPORT. One lemma per field and update of the state's named updates, so that no later proof unfolds one. -/

namespace Sys2Proof
namespace Machine

variable (s : State)


/-! ### `logEvent` -/

@[simp] theorem logEvent_rxBuf (e : Event) : (logEvent e s).rxBuf = s.rxBuf := rfl
@[simp] theorem logEvent_portIn (e : Event) : (logEvent e s).portIn = s.portIn := rfl
@[simp] theorem logEvent_portOut (e : Event) : (logEvent e s).portOut = s.portOut := rfl
@[simp] theorem logEvent_fr (e : Event) : (logEvent e s).fr = s.fr := rfl
@[simp] theorem logEvent_rxLock (e : Event) : (logEvent e s).rxLock = s.rxLock := rfl
@[simp] theorem logEvent_portLock (e : Event) : (logEvent e s).portLock = s.portLock := rfl
@[simp] theorem logEvent_ctrlMap (e : Event) : (logEvent e s).ctrlMap = s.ctrlMap := rfl
@[simp] theorem logEvent_delivQ (e : Event) : (logEvent e s).delivQ = s.delivQ := rfl
@[simp] theorem logEvent_arrivals (e : Event) : (logEvent e s).arrivals = s.arrivals := rfl
@[simp] theorem logEvent_faults (e : Event) : (logEvent e s).faults = s.faults := rfl
@[simp] theorem logEvent_log (e : Event) : (logEvent e s).log = s.log ++ [e] := rfl
@[simp] theorem logEvent_portOpen (e : Event) : (logEvent e s).portOpen = s.portOpen := rfl
@[simp] theorem logEvent_host (e : Event) : (logEvent e s).host = s.host := rfl
@[simp] theorem logEvent_params (e : Event) : (logEvent e s).params = s.params := rfl
@[simp] theorem logEvent_agenda (e : Event) : (logEvent e s).agenda = s.agenda := rfl
@[simp] theorem logEvent_stage (e : Event) : (logEvent e s).stage = s.stage := rfl
@[simp] theorem logEvent_ret (e : Event) : (logEvent e s).ret = s.ret := rfl
@[simp] theorem logEvent_wireOut (e : Event) : (logEvent e s).wireOut = s.wireOut := rfl

/-! ### `returnOk` -/

@[simp] theorem returnOk_rxBuf : (returnOk s).rxBuf = s.rxBuf := rfl
@[simp] theorem returnOk_portIn : (returnOk s).portIn = s.portIn := rfl
@[simp] theorem returnOk_portOut : (returnOk s).portOut = s.portOut := rfl
@[simp] theorem returnOk_fr : (returnOk s).fr = s.fr := rfl
@[simp] theorem returnOk_rxLock : (returnOk s).rxLock = s.rxLock := rfl
@[simp] theorem returnOk_portLock : (returnOk s).portLock = s.portLock := rfl
@[simp] theorem returnOk_ctrlMap : (returnOk s).ctrlMap = s.ctrlMap := rfl
@[simp] theorem returnOk_delivQ : (returnOk s).delivQ = s.delivQ := rfl
@[simp] theorem returnOk_arrivals : (returnOk s).arrivals = s.arrivals := rfl
@[simp] theorem returnOk_faults : (returnOk s).faults = s.faults := rfl
@[simp] theorem returnOk_log : (returnOk s).log = s.log := rfl
@[simp] theorem returnOk_portOpen : (returnOk s).portOpen = s.portOpen := rfl
@[simp] theorem returnOk_host : (returnOk s).host = s.host := rfl
@[simp] theorem returnOk_params : (returnOk s).params = s.params := rfl
@[simp] theorem returnOk_agenda : (returnOk s).agenda = s.agenda := rfl
@[simp] theorem returnOk_stage : (returnOk s).stage = s.stage := rfl
@[simp] theorem returnOk_ret : (returnOk s).ret = some .ok := rfl
@[simp] theorem returnOk_wireOut : (returnOk s).wireOut = s.wireOut := rfl

/-! ### `raise` -/

@[simp] theorem raise_rxBuf (r : FaultRecord) : (raise r s).rxBuf = s.rxBuf := rfl
@[simp] theorem raise_portIn (r : FaultRecord) : (raise r s).portIn = s.portIn := rfl
@[simp] theorem raise_portOut (r : FaultRecord) : (raise r s).portOut = s.portOut := rfl
@[simp] theorem raise_fr (r : FaultRecord) : (raise r s).fr = s.fr := rfl
@[simp] theorem raise_rxLock (r : FaultRecord) : (raise r s).rxLock = s.rxLock := rfl
@[simp] theorem raise_portLock (r : FaultRecord) : (raise r s).portLock = s.portLock := rfl
@[simp] theorem raise_ctrlMap (r : FaultRecord) : (raise r s).ctrlMap = s.ctrlMap := rfl
@[simp] theorem raise_delivQ (r : FaultRecord) : (raise r s).delivQ = s.delivQ := rfl
@[simp] theorem raise_arrivals (r : FaultRecord) : (raise r s).arrivals = s.arrivals := rfl
@[simp] theorem raise_faults (r : FaultRecord) : (raise r s).faults = insertFault r s.faults := rfl
@[simp] theorem raise_log (r : FaultRecord) : (raise r s).log = s.log := rfl
@[simp] theorem raise_portOpen (r : FaultRecord) : (raise r s).portOpen = s.portOpen := rfl
@[simp] theorem raise_host (r : FaultRecord) : (raise r s).host = s.host := rfl
@[simp] theorem raise_params (r : FaultRecord) : (raise r s).params = s.params := rfl
@[simp] theorem raise_agenda (r : FaultRecord) : (raise r s).agenda = s.agenda := rfl
@[simp] theorem raise_stage (r : FaultRecord) : (raise r s).stage = s.stage := rfl
@[simp] theorem raise_ret (r : FaultRecord) : (raise r s).ret = some (.raised r) := rfl
@[simp] theorem raise_wireOut (r : FaultRecord) : (raise r s).wireOut = s.wireOut := rfl

/-! ### `rawWrite` -/

@[simp] theorem rawWrite_rxBuf (w : List Byte) : (rawWrite w s).rxBuf = s.rxBuf := rfl
@[simp] theorem rawWrite_portIn (w : List Byte) : (rawWrite w s).portIn = s.portIn := rfl
@[simp] theorem rawWrite_portOut (w : List Byte) : (rawWrite w s).portOut = w := rfl
@[simp] theorem rawWrite_fr (w : List Byte) : (rawWrite w s).fr = s.fr := rfl
@[simp] theorem rawWrite_rxLock (w : List Byte) : (rawWrite w s).rxLock = s.rxLock := rfl
@[simp] theorem rawWrite_portLock (w : List Byte) : (rawWrite w s).portLock = s.portLock := rfl
@[simp] theorem rawWrite_ctrlMap (w : List Byte) : (rawWrite w s).ctrlMap = s.ctrlMap := rfl
@[simp] theorem rawWrite_delivQ (w : List Byte) : (rawWrite w s).delivQ = s.delivQ := rfl
@[simp] theorem rawWrite_arrivals (w : List Byte) : (rawWrite w s).arrivals = s.arrivals := rfl
@[simp] theorem rawWrite_faults (w : List Byte) : (rawWrite w s).faults = s.faults := rfl
@[simp] theorem rawWrite_log (w : List Byte) : (rawWrite w s).log = s.log := rfl
@[simp] theorem rawWrite_portOpen (w : List Byte) : (rawWrite w s).portOpen = s.portOpen := rfl
@[simp] theorem rawWrite_host (w : List Byte) : (rawWrite w s).host = s.host := rfl
@[simp] theorem rawWrite_params (w : List Byte) : (rawWrite w s).params = s.params := rfl
@[simp] theorem rawWrite_agenda (w : List Byte) : (rawWrite w s).agenda = s.agenda := rfl
@[simp] theorem rawWrite_stage (w : List Byte) : (rawWrite w s).stage = s.stage := rfl
@[simp] theorem rawWrite_ret (w : List Byte) : (rawWrite w s).ret = s.ret := rfl
@[simp] theorem rawWrite_wireOut (w : List Byte) : (rawWrite w s).wireOut = s.wireOut := rfl

/-! ### `setPoll` -/

@[simp] theorem setPoll_rxBuf (p : PollPhase) : (setPoll p s).rxBuf = s.rxBuf := rfl
@[simp] theorem setPoll_portIn (p : PollPhase) : (setPoll p s).portIn = s.portIn := rfl
@[simp] theorem setPoll_portOut (p : PollPhase) : (setPoll p s).portOut = s.portOut := rfl
@[simp] theorem setPoll_fr (p : PollPhase) : (setPoll p s).fr = s.fr := rfl
@[simp] theorem setPoll_rxLock (p : PollPhase) : (setPoll p s).rxLock = s.rxLock := rfl
@[simp] theorem setPoll_portLock (p : PollPhase) : (setPoll p s).portLock = s.portLock := rfl
@[simp] theorem setPoll_ctrlMap (p : PollPhase) : (setPoll p s).ctrlMap = s.ctrlMap := rfl
@[simp] theorem setPoll_delivQ (p : PollPhase) : (setPoll p s).delivQ = s.delivQ := rfl
@[simp] theorem setPoll_arrivals (p : PollPhase) : (setPoll p s).arrivals = s.arrivals := rfl
@[simp] theorem setPoll_faults (p : PollPhase) : (setPoll p s).faults = s.faults := rfl
@[simp] theorem setPoll_log (p : PollPhase) : (setPoll p s).log = s.log := rfl
@[simp] theorem setPoll_portOpen (p : PollPhase) : (setPoll p s).portOpen = s.portOpen := rfl
@[simp] theorem setPoll_host (p : PollPhase) : (setPoll p s).host = { s.host with poll := p } := rfl
@[simp] theorem setPoll_params (p : PollPhase) : (setPoll p s).params = s.params := rfl
@[simp] theorem setPoll_agenda (p : PollPhase) : (setPoll p s).agenda = s.agenda := rfl
@[simp] theorem setPoll_stage (p : PollPhase) : (setPoll p s).stage = s.stage := rfl
@[simp] theorem setPoll_ret (p : PollPhase) : (setPoll p s).ret = s.ret := rfl
@[simp] theorem setPoll_wireOut (p : PollPhase) : (setPoll p s).wireOut = s.wireOut := rfl

/-! ### `setHolder_rx` -/

@[simp] theorem setHolder_rx_rxBuf (v : Option Agent) : (setHolder .rx v s).rxBuf = s.rxBuf := rfl
@[simp] theorem setHolder_rx_portIn (v : Option Agent) : (setHolder .rx v s).portIn = s.portIn := rfl
@[simp] theorem setHolder_rx_portOut (v : Option Agent) : (setHolder .rx v s).portOut = s.portOut := rfl
@[simp] theorem setHolder_rx_fr (v : Option Agent) : (setHolder .rx v s).fr = s.fr := rfl
@[simp] theorem setHolder_rx_rxLock (v : Option Agent) : (setHolder .rx v s).rxLock = v := rfl
@[simp] theorem setHolder_rx_portLock (v : Option Agent) : (setHolder .rx v s).portLock = s.portLock := rfl
@[simp] theorem setHolder_rx_ctrlMap (v : Option Agent) : (setHolder .rx v s).ctrlMap = s.ctrlMap := rfl
@[simp] theorem setHolder_rx_delivQ (v : Option Agent) : (setHolder .rx v s).delivQ = s.delivQ := rfl
@[simp] theorem setHolder_rx_arrivals (v : Option Agent) : (setHolder .rx v s).arrivals = s.arrivals := rfl
@[simp] theorem setHolder_rx_faults (v : Option Agent) : (setHolder .rx v s).faults = s.faults := rfl
@[simp] theorem setHolder_rx_log (v : Option Agent) : (setHolder .rx v s).log = s.log := rfl
@[simp] theorem setHolder_rx_portOpen (v : Option Agent) : (setHolder .rx v s).portOpen = s.portOpen := rfl
@[simp] theorem setHolder_rx_host (v : Option Agent) : (setHolder .rx v s).host = s.host := rfl
@[simp] theorem setHolder_rx_params (v : Option Agent) : (setHolder .rx v s).params = s.params := rfl
@[simp] theorem setHolder_rx_agenda (v : Option Agent) : (setHolder .rx v s).agenda = s.agenda := rfl
@[simp] theorem setHolder_rx_stage (v : Option Agent) : (setHolder .rx v s).stage = s.stage := rfl
@[simp] theorem setHolder_rx_ret (v : Option Agent) : (setHolder .rx v s).ret = s.ret := rfl
@[simp] theorem setHolder_rx_wireOut (v : Option Agent) : (setHolder .rx v s).wireOut = s.wireOut := rfl

/-! ### `setHolder_port` -/

@[simp] theorem setHolder_port_rxBuf (v : Option Agent) : (setHolder .port v s).rxBuf = s.rxBuf := rfl
@[simp] theorem setHolder_port_portIn (v : Option Agent) : (setHolder .port v s).portIn = s.portIn := rfl
@[simp] theorem setHolder_port_portOut (v : Option Agent) : (setHolder .port v s).portOut = s.portOut := rfl
@[simp] theorem setHolder_port_fr (v : Option Agent) : (setHolder .port v s).fr = s.fr := rfl
@[simp] theorem setHolder_port_rxLock (v : Option Agent) : (setHolder .port v s).rxLock = s.rxLock := rfl
@[simp] theorem setHolder_port_portLock (v : Option Agent) : (setHolder .port v s).portLock = v := rfl
@[simp] theorem setHolder_port_ctrlMap (v : Option Agent) : (setHolder .port v s).ctrlMap = s.ctrlMap := rfl
@[simp] theorem setHolder_port_delivQ (v : Option Agent) : (setHolder .port v s).delivQ = s.delivQ := rfl
@[simp] theorem setHolder_port_arrivals (v : Option Agent) : (setHolder .port v s).arrivals = s.arrivals := rfl
@[simp] theorem setHolder_port_faults (v : Option Agent) : (setHolder .port v s).faults = s.faults := rfl
@[simp] theorem setHolder_port_log (v : Option Agent) : (setHolder .port v s).log = s.log := rfl
@[simp] theorem setHolder_port_portOpen (v : Option Agent) : (setHolder .port v s).portOpen = s.portOpen := rfl
@[simp] theorem setHolder_port_host (v : Option Agent) : (setHolder .port v s).host = s.host := rfl
@[simp] theorem setHolder_port_params (v : Option Agent) : (setHolder .port v s).params = s.params := rfl
@[simp] theorem setHolder_port_agenda (v : Option Agent) : (setHolder .port v s).agenda = s.agenda := rfl
@[simp] theorem setHolder_port_stage (v : Option Agent) : (setHolder .port v s).stage = s.stage := rfl
@[simp] theorem setHolder_port_ret (v : Option Agent) : (setHolder .port v s).ret = s.ret := rfl
@[simp] theorem setHolder_port_wireOut (v : Option Agent) : (setHolder .port v s).wireOut = s.wireOut := rfl

/-! ### `lineDeliver` -/

@[simp] theorem lineDeliver_rxBuf (b : Byte) (bs : List Byte) : (lineDeliver b bs s).rxBuf = s.rxBuf := rfl
@[simp] theorem lineDeliver_portIn (b : Byte) (bs : List Byte) : (lineDeliver b bs s).portIn = s.portIn ++ b :: bs := rfl
@[simp] theorem lineDeliver_portOut (b : Byte) (bs : List Byte) : (lineDeliver b bs s).portOut = s.portOut := rfl
@[simp] theorem lineDeliver_fr (b : Byte) (bs : List Byte) : (lineDeliver b bs s).fr = s.fr := rfl
@[simp] theorem lineDeliver_rxLock (b : Byte) (bs : List Byte) : (lineDeliver b bs s).rxLock = s.rxLock := rfl
@[simp] theorem lineDeliver_portLock (b : Byte) (bs : List Byte) : (lineDeliver b bs s).portLock = s.portLock := rfl
@[simp] theorem lineDeliver_ctrlMap (b : Byte) (bs : List Byte) : (lineDeliver b bs s).ctrlMap = s.ctrlMap := rfl
@[simp] theorem lineDeliver_delivQ (b : Byte) (bs : List Byte) : (lineDeliver b bs s).delivQ = s.delivQ := rfl
@[simp] theorem lineDeliver_arrivals (b : Byte) (bs : List Byte) : (lineDeliver b bs s).arrivals = s.arrivals + 1 := rfl
@[simp] theorem lineDeliver_faults (b : Byte) (bs : List Byte) : (lineDeliver b bs s).faults = s.faults := rfl
@[simp] theorem lineDeliver_log (b : Byte) (bs : List Byte) : (lineDeliver b bs s).log = s.log := rfl
@[simp] theorem lineDeliver_portOpen (b : Byte) (bs : List Byte) : (lineDeliver b bs s).portOpen = s.portOpen := rfl
@[simp] theorem lineDeliver_host (b : Byte) (bs : List Byte) : (lineDeliver b bs s).host = s.host := rfl
@[simp] theorem lineDeliver_params (b : Byte) (bs : List Byte) : (lineDeliver b bs s).params = s.params := rfl
@[simp] theorem lineDeliver_agenda (b : Byte) (bs : List Byte) : (lineDeliver b bs s).agenda = s.agenda := rfl
@[simp] theorem lineDeliver_stage (b : Byte) (bs : List Byte) : (lineDeliver b bs s).stage = s.stage := rfl
@[simp] theorem lineDeliver_ret (b : Byte) (bs : List Byte) : (lineDeliver b bs s).ret = s.ret := rfl
@[simp] theorem lineDeliver_wireOut (b : Byte) (bs : List Byte) : (lineDeliver b bs s).wireOut = s.wireOut := rfl

/-! ### `absorbDecodeError` -/

@[simp] theorem absorbDecodeError_rxBuf (info : Nat) : (absorbDecodeError info s).rxBuf = [] := rfl
@[simp] theorem absorbDecodeError_portIn (info : Nat) : (absorbDecodeError info s).portIn = s.portIn := rfl
@[simp] theorem absorbDecodeError_portOut (info : Nat) : (absorbDecodeError info s).portOut = s.portOut := rfl
@[simp] theorem absorbDecodeError_fr (info : Nat) : (absorbDecodeError info s).fr = none := rfl
@[simp] theorem absorbDecodeError_rxLock (info : Nat) : (absorbDecodeError info s).rxLock = s.rxLock := rfl
@[simp] theorem absorbDecodeError_portLock (info : Nat) : (absorbDecodeError info s).portLock = s.portLock := rfl
@[simp] theorem absorbDecodeError_ctrlMap (info : Nat) : (absorbDecodeError info s).ctrlMap = s.ctrlMap := rfl
@[simp] theorem absorbDecodeError_delivQ (info : Nat) : (absorbDecodeError info s).delivQ = s.delivQ := rfl
@[simp] theorem absorbDecodeError_arrivals (info : Nat) : (absorbDecodeError info s).arrivals = s.arrivals := rfl
@[simp] theorem absorbDecodeError_faults (info : Nat) : (absorbDecodeError info s).faults = s.faults := rfl
@[simp] theorem absorbDecodeError_log (info : Nat) : (absorbDecodeError info s).log = s.log ++ [.decodeError info] := rfl
@[simp] theorem absorbDecodeError_portOpen (info : Nat) : (absorbDecodeError info s).portOpen = s.portOpen := rfl
@[simp] theorem absorbDecodeError_host (info : Nat) : (absorbDecodeError info s).host = s.host := rfl
@[simp] theorem absorbDecodeError_params (info : Nat) : (absorbDecodeError info s).params = s.params := rfl
@[simp] theorem absorbDecodeError_agenda (info : Nat) : (absorbDecodeError info s).agenda = s.agenda := rfl
@[simp] theorem absorbDecodeError_stage (info : Nat) : (absorbDecodeError info s).stage = s.stage := rfl
@[simp] theorem absorbDecodeError_ret (info : Nat) : (absorbDecodeError info s).ret = s.ret := rfl
@[simp] theorem absorbDecodeError_wireOut (info : Nat) : (absorbDecodeError info s).wireOut = s.wireOut := rfl

/-! ### `release_rx` -/

@[simp] theorem release_rx_rxBuf (a : Agent) : (release .rx a s).rxBuf = s.rxBuf := by
  unfold release setHolder; split <;> rfl
@[simp] theorem release_rx_portIn (a : Agent) : (release .rx a s).portIn = s.portIn := by
  unfold release setHolder; split <;> rfl
@[simp] theorem release_rx_portOut (a : Agent) : (release .rx a s).portOut = s.portOut := by
  unfold release setHolder; split <;> rfl
@[simp] theorem release_rx_fr (a : Agent) : (release .rx a s).fr = s.fr := by
  unfold release setHolder; split <;> rfl
@[simp] theorem release_rx_portLock (a : Agent) : (release .rx a s).portLock = s.portLock := by
  unfold release setHolder; split <;> rfl
@[simp] theorem release_rx_ctrlMap (a : Agent) : (release .rx a s).ctrlMap = s.ctrlMap := by
  unfold release setHolder; split <;> rfl
@[simp] theorem release_rx_delivQ (a : Agent) : (release .rx a s).delivQ = s.delivQ := by
  unfold release setHolder; split <;> rfl
@[simp] theorem release_rx_arrivals (a : Agent) : (release .rx a s).arrivals = s.arrivals := by
  unfold release setHolder; split <;> rfl
@[simp] theorem release_rx_faults (a : Agent) : (release .rx a s).faults = s.faults := by
  unfold release setHolder; split <;> rfl
@[simp] theorem release_rx_log (a : Agent) : (release .rx a s).log = s.log := by
  unfold release setHolder; split <;> rfl
@[simp] theorem release_rx_portOpen (a : Agent) : (release .rx a s).portOpen = s.portOpen := by
  unfold release setHolder; split <;> rfl
@[simp] theorem release_rx_host (a : Agent) : (release .rx a s).host = s.host := by
  unfold release setHolder; split <;> rfl
@[simp] theorem release_rx_params (a : Agent) : (release .rx a s).params = s.params := by
  unfold release setHolder; split <;> rfl
@[simp] theorem release_rx_agenda (a : Agent) : (release .rx a s).agenda = s.agenda := by
  unfold release setHolder; split <;> rfl
@[simp] theorem release_rx_stage (a : Agent) : (release .rx a s).stage = s.stage := by
  unfold release setHolder; split <;> rfl
@[simp] theorem release_rx_ret (a : Agent) : (release .rx a s).ret = s.ret := by
  unfold release setHolder; split <;> rfl
@[simp] theorem release_rx_wireOut (a : Agent) : (release .rx a s).wireOut = s.wireOut := by
  unfold release setHolder; split <;> rfl

/-! ### `release_port` -/

@[simp] theorem release_port_rxBuf (a : Agent) : (release .port a s).rxBuf = s.rxBuf := by
  unfold release setHolder; split <;> rfl
@[simp] theorem release_port_portIn (a : Agent) : (release .port a s).portIn = s.portIn := by
  unfold release setHolder; split <;> rfl
@[simp] theorem release_port_portOut (a : Agent) : (release .port a s).portOut = s.portOut := by
  unfold release setHolder; split <;> rfl
@[simp] theorem release_port_fr (a : Agent) : (release .port a s).fr = s.fr := by
  unfold release setHolder; split <;> rfl
@[simp] theorem release_port_rxLock (a : Agent) : (release .port a s).rxLock = s.rxLock := by
  unfold release setHolder; split <;> rfl
@[simp] theorem release_port_ctrlMap (a : Agent) : (release .port a s).ctrlMap = s.ctrlMap := by
  unfold release setHolder; split <;> rfl
@[simp] theorem release_port_delivQ (a : Agent) : (release .port a s).delivQ = s.delivQ := by
  unfold release setHolder; split <;> rfl
@[simp] theorem release_port_arrivals (a : Agent) : (release .port a s).arrivals = s.arrivals := by
  unfold release setHolder; split <;> rfl
@[simp] theorem release_port_faults (a : Agent) : (release .port a s).faults = s.faults := by
  unfold release setHolder; split <;> rfl
@[simp] theorem release_port_log (a : Agent) : (release .port a s).log = s.log := by
  unfold release setHolder; split <;> rfl
@[simp] theorem release_port_portOpen (a : Agent) : (release .port a s).portOpen = s.portOpen := by
  unfold release setHolder; split <;> rfl
@[simp] theorem release_port_host (a : Agent) : (release .port a s).host = s.host := by
  unfold release setHolder; split <;> rfl
@[simp] theorem release_port_params (a : Agent) : (release .port a s).params = s.params := by
  unfold release setHolder; split <;> rfl
@[simp] theorem release_port_agenda (a : Agent) : (release .port a s).agenda = s.agenda := by
  unfold release setHolder; split <;> rfl
@[simp] theorem release_port_stage (a : Agent) : (release .port a s).stage = s.stage := by
  unfold release setHolder; split <;> rfl
@[simp] theorem release_port_ret (a : Agent) : (release .port a s).ret = s.ret := by
  unfold release setHolder; split <;> rfl
@[simp] theorem release_port_wireOut (a : Agent) : (release .port a s).wireOut = s.wireOut := by
  unfold release setHolder; split <;> rfl

/-- The holder frees the arbiter. -/
@[simp] theorem release_rx_rxLock_of_holder (a : Agent) (h : s.rxLock = some a) : (release .rx a s).rxLock = none := by
  simp [release, holder, setHolder, h]

/-- The holder frees the arbiter. -/
@[simp] theorem release_port_portLock_of_holder (a : Agent) (h : s.portLock = some a) :
    (release .port a s).portLock = none := by
  simp [release, holder, setHolder, h]

/-! ### Reset of the block -/

@[simp] theorem resetBlock_params : (resetBlock s).params = s.params := rfl
@[simp] theorem resetBlock_agenda : (resetBlock s).agenda = s.agenda := rfl
@[simp] theorem resetBlock_wireOut : (resetBlock s).wireOut = s.wireOut := rfl
@[simp] theorem resetBlock_host : (resetBlock s).host = { s.host with poll := .idle } := rfl

@[simp] theorem resetBlock_rxBuf : (resetBlock s).rxBuf = State.reset.rxBuf := rfl
@[simp] theorem resetBlock_portIn : (resetBlock s).portIn = State.reset.portIn := rfl
@[simp] theorem resetBlock_portOut : (resetBlock s).portOut = State.reset.portOut := rfl
@[simp] theorem resetBlock_fr : (resetBlock s).fr = State.reset.fr := rfl
@[simp] theorem resetBlock_rxLock : (resetBlock s).rxLock = State.reset.rxLock := rfl
@[simp] theorem resetBlock_portLock : (resetBlock s).portLock = State.reset.portLock := rfl
@[simp] theorem resetBlock_ctrlMap : (resetBlock s).ctrlMap = State.reset.ctrlMap := rfl
@[simp] theorem resetBlock_delivQ : (resetBlock s).delivQ = State.reset.delivQ := rfl
@[simp] theorem resetBlock_arrivals : (resetBlock s).arrivals = State.reset.arrivals := rfl
@[simp] theorem resetBlock_faults : (resetBlock s).faults = State.reset.faults := rfl
@[simp] theorem resetBlock_log : (resetBlock s).log = State.reset.log := rfl
@[simp] theorem resetBlock_portOpen : (resetBlock s).portOpen = State.reset.portOpen := rfl
@[simp] theorem resetBlock_stage : (resetBlock s).stage = State.reset.stage := rfl
@[simp] theorem resetBlock_ret : (resetBlock s).ret = State.reset.ret := rfl

/-! ### The store -/

@[simp] theorem storeSet_store (t : UnitTarget) (h : HostSide) :
    (storeSet t h).store = mapSet h.store t.address t :=
  rfl
@[simp] theorem storeSet_dirty (t : UnitTarget) (h : HostSide) :
    (storeSet t h).dirty = addrInsert h.dirty t.address :=
  rfl
@[simp] theorem storeSet_flush (t : UnitTarget) (h : HostSide) :
    (storeSet t h).flush = h.flush.map fun fl => { fl with setAgain := addrInsert fl.setAgain t.address } :=
  rfl
@[simp] theorem storeSet_saved (t : UnitTarget) (h : HostSide) : (storeSet t h).saved = h.saved := rfl
@[simp] theorem storeSet_now (t : UnitTarget) (h : HostSide) : (storeSet t h).now = h.now := rfl
@[simp] theorem storeSet_log (t : UnitTarget) (h : HostSide) : (storeSet t h).log = h.log := rfl
@[simp] theorem storeSet_poll (t : UnitTarget) (h : HostSide) : (storeSet t h).poll = h.poll := rfl

@[simp] theorem loadAll_store (p : Config.Params) (h : HostSide) :
    (loadAll p h).store = if p.noopPersistence then [] else h.saved :=
  rfl
@[simp] theorem loadAll_dirty (p : Config.Params) (h : HostSide) : (loadAll p h).dirty = [] := rfl
@[simp] theorem loadAll_flush (p : Config.Params) (h : HostSide) : (loadAll p h).flush = none := rfl
@[simp] theorem loadAll_saved (p : Config.Params) (h : HostSide) : (loadAll p h).saved = h.saved := rfl
@[simp] theorem loadAll_now (p : Config.Params) (h : HostSide) : (loadAll p h).now = h.now := rfl
@[simp] theorem loadAll_log (p : Config.Params) (h : HostSide) : (loadAll p h).log = h.log := rfl
@[simp] theorem loadAll_poll (p : Config.Params) (h : HostSide) : (loadAll p h).poll = h.poll := rfl

end Machine
end Sys2Proof
end

