-- ==== Sys2Proof/Laws/Ops.lean ====
section
/-! SUPPORT. One lemma for each shared operation that says once everything it can do. -/

namespace Sys2Proof
namespace Machine

/-! ### Arbiters -/

theorem acquire_eq_some {l : Lock} {a : Agent} {s t : State} :
    acquire l a s = some t ↔ holder l s = none ∧ t = setHolder l (some a) s := by
  unfold acquire
  cases h : holder l s <;> simp [eq_comm]

/-! ### Faults -/

theorem mem_insertFault (r r' : FaultRecord) (fs : List FaultRecord) : r' ∈ insertFault r fs ↔ r' = r ∨ r' ∈ fs := by
  unfold insertFault
  split
  · rename_i h
    exact ⟨.inr, fun h' => h'.elim (fun e => e ▸ h) id⟩
  · simp [or_comm]

theorem nodup_insertFault {fs : List FaultRecord} (h : fs.Nodup) (r : FaultRecord) : (insertFault r fs).Nodup := by
  unfold insertFault
  split
  · exact h
  · rename_i hr
    rw [List.nodup_append]
    exact ⟨h, by simp, fun a ha b hb e => hr ((e.trans (List.mem_singleton.1 hb)) ▸ ha)⟩

/-- No record leaves the set (R227). -/
theorem prefix_insertFault (r : FaultRecord) (fs : List FaultRecord) : fs <+: insertFault r fs := by
  unfold insertFault
  split
  · exact List.prefix_refl _
  · exact List.prefix_append _ _

theorem faulted_iff (s : State) : faulted s = true ↔ ∃ site, FaultRecord.ioTimeout site ∈ s.faults := by
  simp only [faulted, List.any_eq_true]
  constructor
  · rintro ⟨r, hr, ht⟩
    cases r <;> simp only [FaultRecord.isTimeout, Bool.false_eq_true] at ht
    exact ⟨_, hr⟩
  · rintro ⟨site, h⟩
    exact ⟨_, h, rfl⟩

/-! ### A frame on receive, on dispatch, on send -/

theorem receiveFrame_cases (i : Instr) (s : State) :
    (i.wireLen ≤ s.rxBuf.length ∧
      receiveFrame i s = .next { s with
        rxBuf := s.rxBuf.drop i.wireLen, fr := some i.frame, delivQ := s.delivQ ++ [i.frame], stage := .receive }) ∨
    (s.rxBuf.length < i.wireLen ∧ receiveFrame i s = .refused .dropPastEnd) := by
  by_cases h : i.wireLen ≤ s.rxBuf.length
  · exact .inl ⟨h, by simp [receiveFrame, dropFront, h]⟩
  · exact .inr ⟨Nat.lt_of_not_le h, by simp [receiveFrame, dropFront, h]⟩

theorem routeFrame_cases (f : Frame) (handler : Controller → Controller) (s : State) :
    (filteredOut f s = true ∧ routeFrame f handler s = { s with stage := .receive, ret := some .ok }) ∨
    (filteredOut f s = false ∧ mapGet s.ctrlMap f.sender = none ∧
      routeFrame f handler s = { s with stage := .receive, ret := some .ok, log := s.log ++ [.unrouted f] }) ∨
    (filteredOut f s = false ∧ (∃ c, mapGet s.ctrlMap f.sender = some c) ∧
      routeFrame f handler s =
        { s with stage := .receive, ret := some .ok, ctrlMap := mapModify s.ctrlMap f.sender handler }) := by
  unfold routeFrame
  cases hf : filteredOut f s
  · cases hm : mapGet s.ctrlMap f.sender <;> simp [logEvent, returnOk]
  · simp [returnOk]

theorem acquire_port_of_free {s : State} (a : Agent) (h : s.portLock = none) :
    acquire .port a s = some { s with portLock := some a } := by
  simp [acquire, holder, setHolder, h]

/-- A send with the port open and `PORTLOCK` free, by a frame of the master: busy, timed out, or written whole. -/
theorem sendFrame_of_ready (i : Instr) (caller : Agent) (timeout : Option Nat) {s : State}
    (hi : i.frame.sender = Config.masterAddr) (ho : s.portOpen = true) (hp : s.portLock = none) :
    sendFrame i caller timeout s =
      .next (if txBusy s then
          { s with
            stage := .receive
            faults := insertFault (.writeWhileBusy i.frame) s.faults
            ret := some (.raised (.writeWhileBusy i.frame)) }
        else match timeout with
          | some k =>
            { s with
              stage := .receive
              portOut := (encode i).take k
              faults := insertFault (.ioTimeout .atWrite) s.faults
              ret := some (.raised (.ioTimeout .atWrite)) }
          | none => { s with stage := .receive, portOut := encode i, ret := some .ok }) := by
  cases s
  simp only at ho hp
  subst ho hp
  cases timeout <;>
    simp [sendFrame, hi, acquire, holder, setHolder, writeFrame, txBusy, raise, release, rawWrite, returnOk]

/-- Everything a send can do. -/
theorem sendFrame_cases (i : Instr) (caller : Agent) (timeout : Option Nat) (s : State) :
    (i.frame.sender ≠ Config.masterAddr ∧ sendFrame i caller timeout s = .refused .senderNotMaster) ∨
    (i.frame.sender = Config.masterAddr ∧ s.portOpen = false ∧
      sendFrame i caller timeout s = .refused .portClosed) ∨
    (i.frame.sender = Config.masterAddr ∧ s.portOpen = true ∧ s.portLock ≠ none ∧
      sendFrame i caller timeout s = .next s) ∨
    (i.frame.sender = Config.masterAddr ∧ s.portOpen = true ∧ s.portLock = none ∧
      ∃ t, sendFrame i caller timeout s = .next t) := by
  by_cases hi : i.frame.sender = Config.masterAddr
  · cases ho : s.portOpen
    · exact .inr (.inl ⟨hi, rfl, by simp [sendFrame, hi, ho]⟩)
    · cases hp : s.portLock
      · exact .inr (.inr (.inr ⟨hi, rfl, rfl, _, sendFrame_of_ready i caller timeout hi ho hp⟩))
      · exact .inr (.inr (.inl ⟨hi, rfl, by simp, by simp [sendFrame, hi, ho, acquire, holder, hp]⟩))
  · exact .inl ⟨hi, by simp [sendFrame, hi]⟩

/-- The handler of each kind (R166). -/
def handlerOf (i : Instr) (s : State) : Controller → Controller :=
  match i with
  | .ack _ _ => onAck s.host.now
  | .nack _ _ => onNAck
  | .set _ _ analog digit difficulty status => onSet s.params s.host.now ⟨analog, digit, difficulty, status⟩
  | .get _ _ => onGet
  | .unknown _ _ _ => onUnknown

/-- `exec` of a well-formed instruction is the common path with the handler of its kind. -/
theorem exec_of_wf {i : Instr} (h : i.wf) (s : State) : exec i s = runFrame i (handlerOf i s) s := by
  cases i with
  | unknown code dest sender =>
    have h' : isUnknownCode code = true := h
    simp [exec, execUnknown, handlerOf, h']
  | _ => rfl

/-- `exec` refuses an ill-formed instruction. -/
theorem exec_of_not_wf {i : Instr} (h : i.wf = false) (s : State) : exec i s = .refused .illFormedFrame := by
  cases i with
  | unknown code dest sender =>
    have h' : isUnknownCode code = false := h
    simp [exec, execUnknown, h']
  | _ => cases h

/-! ### Extraction -/

/-- One extraction of `RX_ARRIVE` and what follows it, in terms of `EXTRACT` (R113, R132). -/
theorem extractTimes_succ (n : Nat) (s : State) :
    extractTimes (n + 1) s =
      match extract s.rxBuf with
      | (none, b) => .next { s with rxBuf := b, fr := none }
      | (some i, b) =>
        extractTimes n
          { s with rxBuf := b, fr := some i.frame, delivQ := s.delivQ ++ [i.frame], stage := .receive } := by
  rw [extractTimes, fetchFrame]
  rcases extract_cases s.rxBuf with ⟨i, rest, h, e⟩ | ⟨r, h, -, e⟩
  · obtain ⟨hr, hl⟩ := decode_ok_rest h
    simp [h, e, exec_of_wf (decode_ok_wf h), runFrame, receiveFrame, dropFront, hl, hr]
  · simp [h, e]

/-- Extraction always answers a next state: the receive path cannot fail after the append (R138). -/
theorem extractTimes_next (n : Nat) (s : State) : ∃ t, extractTimes n s = .next t := by
  induction n generalizing s with
  | zero => exact ⟨s, rfl⟩
  | succ n ih =>
    rw [extractTimes_succ]
    split
    · exact ⟨_, rfl⟩
    · exact ih _

/-- What extraction can change: `RXBUF` (to a suffix), `FR`, `DELIVQ` (frames are pushed behind) and `stage`. -/
theorem extractTimes_frame {n : Nat} {s t : State} (h : extractTimes n s = .next t) :
    t = { s with rxBuf := t.rxBuf, fr := t.fr, delivQ := t.delivQ, stage := t.stage } ∧
      t.rxBuf <:+ s.rxBuf ∧ (∃ q, t.delivQ = s.delivQ ++ q ∧ ∀ f ∈ q, f.wf) ∧
      (t.stage = s.stage ∨ t.stage = .receive) ∧ (t.fr = s.fr ∨ ∀ f ∈ t.fr, f.wf) := by
  induction n generalizing s with
  | zero =>
    obtain rfl : s = t := by simpa [extractTimes] using h
    exact ⟨rfl, List.suffix_refl _, ⟨[], by simp, by simp⟩, .inl rfl, .inl rfl⟩
  | succ n ih =>
    rw [extractTimes_succ] at h
    have hs := extract_suffix s.rxBuf
    split at h
    · rename_i b he
      obtain rfl := Host.Outcome.next.inj h
      exact ⟨rfl, by simpa [he] using hs, ⟨[], by simp, by simp⟩, .inl rfl, .inr (by simp)⟩
    · rename_i i b he
      have hwf : i.wf := by
        rcases extract_cases s.rxBuf with ⟨j, rest, hd, e⟩ | ⟨r, -, -, e⟩
        · rw [he] at e
          obtain ⟨rfl, -⟩ : i = j ∧ b = rest := by simpa using e
          exact decode_ok_wf hd
        · simp [he] at e
      obtain ⟨h1, h2, ⟨q, hq, hqw⟩, h4, h5⟩ := ih h
      refine ⟨h1, h2.trans (by simpa [he] using hs), ⟨i.frame :: q, by simp [hq], ?_⟩, ?_, ?_⟩
      · intro f hf
        rcases List.mem_cons.1 hf with rfl | hf
        · exact frame_wf i hwf
        · exact hqw f hf
      · rcases h4 with h4 | h4 <;> exact .inr h4
      · rcases h5 with h5 | h5
        · right
          rw [h5]
          simpa using frame_wf i hwf
        · exact .inr h5

/-! ### The step -/

/-- What `pick` answers comes from one operation of the agenda. -/
theorem pick_some {s : State} {kept l : List Action} {waiting : List Agent} {o : Out}
    (h : pick s kept waiting l = some o) :
    ∃ a ∈ l, ∃ g, attempt a { s with agenda := g } = some o ∧ ∀ b ∈ g, b ∈ kept ++ l := by
  induction l generalizing kept waiting with
  | nil => simp [pick] at h
  | cons a rest ih =>
    unfold pick at h
    split at h
    · obtain ⟨b, hb, g, hg, hm⟩ := ih h
      exact ⟨b, List.mem_cons_of_mem _ hb, g, hg, fun x hx => by simpa using hm x hx⟩
    · split at h
      · rename_i o' ho
        obtain rfl : o' = o := by simpa using h
        exact ⟨a, List.mem_cons_self, _, ho, fun x hx => by
          rcases List.mem_append.1 hx with hx | hx <;> simp [hx]⟩
      · obtain ⟨b, hb, g, hg, hm⟩ := ih h
        exact ⟨b, List.mem_cons_of_mem _ hb, g, hg, fun x hx => by simpa using hm x hx⟩

/-- Everything a step can be: one operation of the agenda, or idling. -/
theorem step_cases (s : State) :
    (∃ a ∈ s.agenda, ∃ g, attempt a { s with agenda := g } = some (step s) ∧ ∀ b ∈ g, b ∈ s.agenda) ∨
      step s = idleStep s := by
  cases h : pick s [] [] s.agenda with
  | none => exact .inr (by simp [step, h])
  | some o =>
    obtain ⟨a, ha, g, hg, hm⟩ := pick_some h
    exact .inl ⟨a, ha, g, by simpa [step, h] using hg, by simpa using hm⟩

/-- The first operation of the agenda, where it has a step, is the step. -/
theorem step_of_head {s : State} {a : Action} {rest : List Action} {o : Out} (hs : s.agenda = a :: rest)
    (h : attempt a { s with agenda := rest } = some o) : step s = o := by
  simp [step, hs, pick, h]

end Machine
end Sys2Proof
end

