-- ==== Sys2Proof/Laws/Tables.lean ====
section
/-! SUPPORT. What each table operation does, said once: what is read at a key after it, and that the canonical forms
are kept. -/

namespace Sys2Proof
namespace Machine

variable {α : Type}

/-! ### Reading at a key -/

theorem mapGet_none_iff (m : List (Byte × α)) (k : Byte) : mapGet m k = none ↔ k ∉ m.map Prod.fst := by
  induction m with
  | nil => simp [mapGet]
  | cons e m ih =>
    obtain ⟨a, v⟩ := e
    by_cases h : a = k
    · simp [mapGet, h]
    · simp only [mapGet, h, if_false, ih, List.map_cons, List.mem_cons, not_or]
      exact ⟨fun hk => ⟨fun e => h e.symm, hk⟩, And.right⟩

theorem mapGet_isSome_iff (m : List (Byte × α)) (k : Byte) : (mapGet m k).isSome ↔ k ∈ m.map Prod.fst := by
  rw [← not_iff_not, ← mapGet_none_iff]
  simp

theorem mapGet_mem {m : List (Byte × α)} {k : Byte} {v : α} (h : mapGet m k = some v) : (k, v) ∈ m := by
  induction m with
  | nil => simp [mapGet] at h
  | cons e m ih =>
    obtain ⟨a, w⟩ := e
    by_cases hak : a = k
    · simp_all [mapGet]
    · exact List.mem_cons_of_mem _ (ih (by simpa [mapGet, hak] using h))

theorem mapGet_of_mem {m : List (Byte × α)} (hm : (m.map Prod.fst).Nodup) {k : Byte} {v : α} (h : (k, v) ∈ m) :
    mapGet m k = some v := by
  induction m with
  | nil => simp at h
  | cons e m ih =>
    obtain ⟨a, w⟩ := e
    simp only [List.map_cons, List.nodup_cons] at hm
    rcases List.mem_cons.1 h with h | h
    · obtain ⟨rfl, rfl⟩ := Prod.mk.inj h
      simp [mapGet]
    · have hne : a ≠ k := fun e => hm.1 (e ▸ List.mem_map_of_mem (f := Prod.fst) h)
      simp [mapGet, hne, ih hm.2 h]

theorem mapGet_append (m m' : List (Byte × α)) (k : Byte) : mapGet (m ++ m') k = (mapGet m k).or (mapGet m' k) := by
  induction m with
  | nil => simp [mapGet]
  | cons e m ih =>
    obtain ⟨a, v⟩ := e
    by_cases h : a = k <;> simp [mapGet, h, ih]

theorem mapGet_mapModify (m : List (Byte × α)) (k a : Byte) (f : α → α) :
    mapGet (mapModify m k f) a = if a = k then (mapGet m a).map f else mapGet m a := by
  induction m with
  | nil => simp [mapGet, mapModify]
  | cons e m ih =>
    obtain ⟨b, v⟩ := e
    simp only [mapModify, List.map_cons] at ih ⊢
    by_cases hb : b = k
    · by_cases ha : b = a
      · subst hb; subst ha; simp [mapGet]
      · have : ¬ a = k := fun e => ha (hb.trans e.symm)
        simp [mapGet, hb, ih, this, show ¬ k = a from fun e => this e.symm]
    · by_cases ha : b = a
      · subst ha; simp [mapGet, hb]
      · simp [mapGet, hb, ha, ih]

theorem mapGet_mapErase (m : List (Byte × α)) (k a : Byte) :
    mapGet (mapErase m k) a = if a = k then none else mapGet m a := by
  induction m with
  | nil => simp [mapGet, mapErase]
  | cons e m ih =>
    obtain ⟨b, v⟩ := e
    simp only [mapErase] at ih
    by_cases hb : b = k
    · subst hb
      by_cases ha : a = b
      · subst ha; simpa [mapErase, List.filter_cons] using ih
      · simpa [mapErase, List.filter_cons, mapGet, ha, show ¬ b = a from fun e => ha e.symm] using ih
    · by_cases ha : b = a
      · subst ha; simp [mapErase, mapGet, hb]
      · simpa [mapErase, List.filter_cons, mapGet, hb, ha] using ih

theorem mapGet_mapSet (m : List (Byte × α)) (k a : Byte) (v : α) :
    mapGet (mapSet m k v) a = if a = k then some v else mapGet m a := by
  induction m with
  | nil => simp [mapSet, mapGet, @eq_comm _ a k]
  | cons e m ih =>
    obtain ⟨b, w⟩ := e
    unfold mapSet
    split
    · by_cases h : a = k
      · simp [mapGet, h]
      · simp [mapGet, h, show ¬ k = a from fun e => h e.symm]
    · split
      · rename_i _ hkb
        subst hkb
        by_cases h : a = k
        · simp [mapGet, h]
        · simp [mapGet, h, show ¬ k = a from fun e => h e.symm]
      · rename_i _ hkb
        by_cases h : b = a
        · subst h; simp [mapGet, show ¬ b = k from fun e => hkb e.symm]
        · simp [mapGet, h, ih]

/-! ### Keys -/

@[simp] theorem mapModify_keys (m : List (Byte × α)) (k : Byte) (f : α → α) :
    (mapModify m k f).map Prod.fst = m.map Prod.fst := by
  simp only [mapModify, List.map_map]
  refine List.map_congr_left fun e _ => ?_
  by_cases h : e.1 = k <;> simp [h]

theorem mapErase_keys (m : List (Byte × α)) (k : Byte) :
    (mapErase m k).map Prod.fst = (m.map Prod.fst).filter (· != k) := by
  simp [mapErase, List.filter_map, Function.comp_def]

theorem mapErase_of_not_mem (m : List (Byte × α)) (k : Byte) (h : mapGet m k = none) : mapErase m k = m := by
  rw [mapGet_none_iff] at h
  refine List.filter_eq_self.2 fun e he => ?_
  simpa using fun e' : e.1 = k => h (e' ▸ List.mem_map_of_mem (f := Prod.fst) he)

theorem mapModify_id (m : List (Byte × α)) (k : Byte) : mapModify m k (fun v => v) = m := by
  simp [mapModify]

theorem mem_mapSet_keys (m : List (Byte × α)) (k a : Byte) (v : α) :
    a ∈ (mapSet m k v).map Prod.fst ↔ a = k ∨ a ∈ m.map Prod.fst := by
  rw [← mapGet_isSome_iff, ← mapGet_isSome_iff, mapGet_mapSet]
  by_cases h : a = k <;> simp [h]

theorem mapSet_mem {m : List (Byte × α)} {k : Byte} {v : α} {e : Byte × α} (h : e ∈ mapSet m k v) :
    e = (k, v) ∨ e ∈ m := by
  induction m with
  | nil => exact .inl (by simpa [mapSet] using h)
  | cons x m ih =>
    obtain ⟨b, w⟩ := x
    unfold mapSet at h
    split at h
    · exact List.mem_cons.1 h
    · split at h
      · exact (List.mem_cons.1 h).imp_right (List.mem_cons_of_mem _)
      · rcases List.mem_cons.1 h with h | h
        · exact .inr (h ▸ List.mem_cons_self)
        · exact (ih h).imp_right (List.mem_cons_of_mem _)

/-! ### Address sets -/

theorem mem_addrInsert (l : List Byte) (k a : Byte) : a ∈ addrInsert l k ↔ a = k ∨ a ∈ l := by
  induction l with
  | nil => simp [addrInsert]
  | cons b l ih =>
    unfold addrInsert
    split
    · simp
    · split
      · rename_i _ h
        subst h
        simp
      · simp only [List.mem_cons, ih]
        tauto

theorem mem_addrErase (l : List Byte) (k a : Byte) : a ∈ addrErase l k ↔ a ∈ l ∧ a ≠ k := by
  simp [addrErase]

/-! ### The canonical forms are kept -/

theorem addrsOk_cons (a : Byte) (l : List Byte) : AddrsOk (a :: l) ↔ (∀ b ∈ l, a.toNat < b.toNat) ∧ AddrsOk l := by
  simp [AddrsOk]

theorem addrsOk_addrInsert {l : List Byte} (h : AddrsOk l) (k : Byte) : AddrsOk (addrInsert l k) := by
  induction l with
  | nil => simp [addrInsert, AddrsOk]
  | cons b l ih =>
    rw [addrsOk_cons] at h
    unfold addrInsert
    split
    · rename_i hk
      rw [addrsOk_cons, addrsOk_cons]
      refine ⟨fun c hc => ?_, h⟩
      rcases List.mem_cons.1 hc with rfl | hc
      · exact hk
      · exact hk.trans (h.1 c hc)
    · split
      · rename_i _ hkb
        exact (addrsOk_cons ..).2 h
      · rename_i hk hkb
        have hlt : b.toNat < k.toNat :=
          lt_of_le_of_ne (Nat.le_of_not_lt hk) fun e => hkb (BitVec.eq_of_toNat_eq e).symm
        rw [addrsOk_cons]
        refine ⟨fun c hc => ?_, ih h.2⟩
        rcases (mem_addrInsert ..).1 hc with rfl | hc
        · exact hlt
        · exact h.1 c hc

theorem addrsOk_addrErase {l : List Byte} (h : AddrsOk l) (k : Byte) : AddrsOk (addrErase l k) :=
  List.Pairwise.sublist (List.Sublist.map _ List.filter_sublist) h

theorem addrsOk_mapSet {m : List (Byte × α)} (h : AddrsOk (m.map Prod.fst)) (k : Byte) (v : α) :
    AddrsOk ((mapSet m k v).map Prod.fst) := by
  induction m with
  | nil => simp [mapSet, AddrsOk]
  | cons e m ih =>
    obtain ⟨b, w⟩ := e
    rw [List.map_cons, addrsOk_cons] at h
    unfold mapSet
    split
    · rename_i hk
      simp only [List.map_cons]
      rw [addrsOk_cons, addrsOk_cons]
      refine ⟨fun c hc => ?_, h⟩
      rcases List.mem_cons.1 hc with rfl | hc
      · exact hk
      · exact hk.trans (h.1 c hc)
    · split
      · rename_i _ hkb
        subst hkb
        exact (addrsOk_cons ..).2 h
      · rename_i hk hkb
        have hlt : b.toNat < k.toNat :=
          lt_of_le_of_ne (Nat.le_of_not_lt hk) fun e => hkb (BitVec.eq_of_toNat_eq e).symm
        rw [List.map_cons, addrsOk_cons]
        refine ⟨fun c hc => ?_, ih h.2⟩
        rcases (mem_mapSet_keys ..).1 hc with rfl | hc
        · exact hlt
        · exact h.1 c hc

theorem storeOk_mapSet {m : List (Byte × UnitTarget)} (h : StoreOk m) (t : UnitTarget) :
    StoreOk (mapSet m t.address t) := by
  refine ⟨addrsOk_mapSet h.1 _ _, fun e he => ?_⟩
  rcases mapSet_mem he with rfl | he
  · rfl
  · exact h.2 e he

/-- A change of a controller that keeps its address keeps the form of `CTRL_MAP`. -/
theorem ctrlMapOk_mapModify {m : List (Byte × Controller)} (h : CtrlMapOk m) (k : Byte) (f : Controller → Controller)
    (hf : ∀ c, c.address = k → (f c).address = k) : CtrlMapOk (mapModify m k f) := by
  refine ⟨by simpa using h.1, fun e he => ?_⟩
  obtain ⟨e', he', rfl⟩ := List.mem_map.1 he
  have h' := h.2 e' he'
  by_cases hk : e'.1 = k
  · simpa [hk] using ⟨hk ▸ h'.1, hf _ (h'.2.trans hk)⟩
  · simpa [hk] using h'

theorem ctrlMapOk_mapErase {m : List (Byte × Controller)} (h : CtrlMapOk m) (k : Byte) : CtrlMapOk (mapErase m k) :=
  ⟨by rw [mapErase_keys]; exact h.1.filter _, fun e he => h.2 e (List.mem_of_mem_filter he)⟩

theorem ctrlMapOk_append {m : List (Byte × Controller)} (h : CtrlMapOk m) {a : Byte} {c : Controller}
    (hnew : mapGet m a = none) (hres : isReserved a = false) (hc : c.address = a) : CtrlMapOk (m ++ [(a, c)]) := by
  rw [mapGet_none_iff] at hnew
  refine ⟨?_, fun e he => ?_⟩
  · rw [List.map_append, List.map_singleton, List.nodup_append]
    exact ⟨h.1, by simp, fun b hb x hx e => hnew ((show b = a from e.trans (List.mem_singleton.1 hx)) ▸ hb)⟩
  · rcases List.mem_append.1 he with he | he
    · exact h.2 e he
    · obtain rfl := List.mem_singleton.1 he
      exact ⟨hres, hc⟩

end Machine
end Sys2Proof
end

