-- ==== Sys2Proof/Laws/Actions.lean ====
section
/-! SUPPORT. What each operation of an agent can do, said once: where it answers a next state, that state. -/

namespace Sys2Proof
namespace Machine

/-! ### `exec` -/

/-- Everything a send can leave behind. -/
def SendResult (i : Instr) (timeout : Option Nat) (s t : State) : Prop :=
  (s.portLock ≠ none ∧ t = s) ∨
  (s.portLock = none ∧ s.portOut ≠ [] ∧
    t = { s with
      stage := .receive
      faults := insertFault (.writeWhileBusy i.frame) s.faults
      ret := some (.raised (.writeWhileBusy i.frame)) }) ∨
  (s.portLock = none ∧ s.portOut = [] ∧ ∃ k, timeout = some k ∧
    t = { s with
      stage := .receive
      portOut := (encode i).take k
      faults := insertFault (.ioTimeout .atWrite) s.faults
      ret := some (.raised (.ioTimeout .atWrite)) }) ∨
  (s.portLock = none ∧ s.portOut = [] ∧ timeout = none ∧
    t = { s with stage := .receive, portOut := encode i, ret := some .ok })

theorem wf_of_exec_next {i : Instr} {s t : State} (h : exec i s = .next t) : i.wf := by
  cases hw : i.wf with
  | true => rfl
  | false => rw [exec_of_not_wf hw] at h; cases h

theorem sendFrame_next {i : Instr} {caller : Agent} {timeout : Option Nat} {s t : State}
    (h : sendFrame i caller timeout s = .next t) :
    i.frame.sender = Config.masterAddr ∧ s.portOpen = true ∧ SendResult i timeout s t := by
  rcases sendFrame_cases i caller timeout s with ⟨_, e⟩ | ⟨_, _, e⟩ | ⟨hi, ho, hp, e⟩ | ⟨hi, ho, hp, _⟩
  · rw [e] at h; cases h
  · rw [e] at h; cases h
  · rw [e] at h; cases h
    exact ⟨hi, ho, .inl ⟨hp, rfl⟩⟩
  · rw [sendFrame_of_ready i caller timeout hi ho hp] at h
    obtain rfl := Host.Outcome.next.inj h
    refine ⟨hi, ho, .inr ?_⟩
    by_cases hb : s.portOut = []
    · have : txBusy s = false := by simp [txBusy, hb]
      rw [this]
      cases timeout with
      | some k => exact .inr (.inl ⟨hp, hb, k, rfl, by simp⟩)
      | none => exact .inr (.inr ⟨hp, hb, rfl, by simp⟩)
    · have : txBusy s = true := by simp [txBusy, List.length_pos_iff, hb]
      exact .inl ⟨hp, hb, by simp [this]⟩

/-- Everything `exec` can answer as a next state. -/
theorem exec_next {i : Instr} {s t : State} (h : exec i s = .next t) :
    i.wf ∧
      ((s.stage = .receive ∧ i.wireLen ≤ s.rxBuf.length ∧
          t = { s with
            rxBuf := s.rxBuf.drop i.wireLen, fr := some i.frame, delivQ := s.delivQ ++ [i.frame],
            stage := .receive }) ∨
        (s.stage = .dispatch ∧ t = routeFrame i.frame (handlerOf i s) s) ∨
        ∃ caller timeout, s.stage = .send caller timeout ∧ i.frame.sender = Config.masterAddr ∧
          s.portOpen = true ∧ SendResult i timeout s t) := by
  have hw := wf_of_exec_next h
  rw [exec_of_wf hw, runFrame] at h
  refine ⟨hw, ?_⟩
  split at h
  · rename_i hs
    rcases receiveFrame_cases i s with ⟨hl, e⟩ | ⟨_, e⟩ <;> rw [e] at h
    · exact .inl ⟨hs, hl, (Host.Outcome.next.inj h).symm⟩
    · cases h
  · exact .inr (.inl ⟨‹_›, (Host.Outcome.next.inj h).symm⟩)
  · exact .inr (.inr ⟨_, _, ‹_›, sendFrame_next h⟩)

/-- No handler changes the address of its controller. -/
@[simp] theorem handlerOf_address (i : Instr) (s : State) (c : Controller) :
    (handlerOf i s c).address = c.address := by cases i <;> rfl

@[simp] theorem applyRequest_address (r : Request) (c : Controller) : (applyRequest r c).address = c.address := by
  cases r <;> rfl

/-- The updates of `performPendingWork` keep the controller's address. -/
theorem applyPending_address {p : Config.Params} {h : HostSide} {draw : PollDraw} {c c' : Controller}
    (hc : applyPending p h draw c = some c') : c'.address = c.address := by
  simp only [applyPending, Option.map_eq_some_iff, Option.bind_eq_some_iff] at hc
  obtain ⟨c3, ⟨c1, h1, c2, h2, h3⟩, rfl⟩ := hc
  have e1 : c1.address = c.address := by
    unfold applyFreshTarget at h1
    split at h1
    · obtain ⟨o, -, rfl⟩ := Option.map_eq_some_iff.1 h1
      cases o <;> rfl
    · rw [Option.some.inj h1]
  have e2 : c2.address = c1.address := by
    unfold applyJumperBreak at h2
    split at h2
    · rw [Option.some.inj h2]
    · obtain rfl := Option.some.inj h2; rfl
    · obtain ⟨o, -, rfl⟩ := Option.map_eq_some_iff.1 h2; rfl
  have e3 : c3.address = c2.address := by
    unfold applyResistorBreak at h3
    split at h3
    · obtain ⟨o, -, rfl⟩ := Option.map_eq_some_iff.1 h3; rfl
    · rw [Option.some.inj h3]
  rw [← e1, ← e2, ← e3]
  unfold applyAutoRestore
  split <;> rfl

/-! ### An arrival -/

/-- A stream read from what `EXTRACT` leaves before it decodes is read the same from its head (R113 step 5). -/
theorem parses_of_resync {b r : List Byte} {is : List Instr} (h : Parses (resync b) is r) : Parses b is r := by
  induction b with
  | nil => exact h
  | cons x b ih =>
    by_cases hm : decode (x :: b) = .error .crcMismatch
    · exact .drop hm (ih (by rwa [resync_of_mismatch hm] at h))
    · rwa [resync_of_no_mismatch hm] at h

/-- What extractions push: the frames of the stream in `RXBUF`, in its order, as many as there are extractions
(R132, R142, R54). -/
theorem extractTimes_pushes (s : State) :
    ∃ is r, Parses s.rxBuf is r ∧ is.length ≤ s.rxBuf.length ∧
      ∀ n t, extractTimes n s = .next t → t.delivQ = s.delivQ ++ (is.take n).map Instr.frame := by
  induction hl : s.rxBuf.length using Nat.strong_induction_on generalizing s with
  | _ l ih =>
    have hs := (resync_suffix s.rxBuf).length_le
    rcases extract_cases s.rxBuf with ⟨i, rest, hd, e⟩ | ⟨why, hd, hne, e⟩
    · obtain ⟨hr, hrl⟩ := decode_ok_rest hd
      have hlt : rest.length < l := by
        have := wireLen_cases i
        rw [hr, List.length_drop]
        omega
      obtain ⟨is, r, hp, hil, he⟩ := ih rest.length hlt
        { s with rxBuf := rest, fr := some i.frame, delivQ := s.delivQ ++ [i.frame], stage := .receive } rfl
      refine ⟨i :: is, r, parses_of_resync (.take hd hp), by rw [List.length_cons]; omega, fun n t ht => ?_⟩
      cases n with
      | zero => obtain rfl := Host.Outcome.next.inj ht; simp
      | succ n =>
        rw [extractTimes_succ, e] at ht
        simp [he n t ht]
    · refine ⟨[], resync s.rxBuf, parses_of_resync (.stop hd hne), by simp, fun n t ht => ?_⟩
      cases n with
      | zero => obtain rfl := Host.Outcome.next.inj ht; simp
      | succ n =>
        rw [extractTimes_succ, e] at ht
        obtain rfl := Host.Outcome.next.inj ht
        simp

/-- What an arrival that has its notification and both arbiters leaves behind. -/
theorem serveArrival_next (a : Agent) (draw : ArriveDraw) {s : State} (hr : s.rxLock = some a)
    (hp : s.portLock = some a) :
    ∃ t, serveArrival a draw s = .next t ∧
      t = { s with
        rxLock := none, portLock := none, portIn := t.portIn, rxBuf := t.rxBuf, fr := t.fr, delivQ := t.delivQ,
        log := t.log, faults := t.faults, stage := t.stage, ret := t.ret } ∧
      (t.stage = s.stage ∨ t.stage = .receive) ∧ (t.fr = s.fr ∨ ∀ f ∈ t.fr, f.wf) ∧
      (∃ q, t.delivQ = s.delivQ ++ q ∧ ∀ f ∈ q, f.wf) ∧
      (t.log = s.log ∨ ∃ info, t.log = s.log ++ [.decodeError info]) ∧
      (t.faults = s.faults ∨ t.faults = insertFault (.ioTimeout .atRead) s.faults) := by
  cases hd : draw.readTimeout
  · simp only [serveArrival, hd, rawRead, Bool.false_eq_true, if_false]
    generalize hs : ({ s with rxLock := some a, portLock := none, portIn := [] } : State) = s₁
    have e1 : release .port a { s with portIn := [] } = s₁ := by
      rw [← hs]; simp [release, holder, setHolder, hp, hr]
    rw [e1, appendExtract]
    generalize hs2 : ({ s₁ with rxBuf := append s₁.rxBuf s.portIn } : State) = s₂
    have hr2 : s₂.rxLock = some a := by rw [← hs2, ← hs]
    have done : ∀ u : State, u.rxLock = some a → release .rx a u = { u with rxLock := none } := by
      intro u hu; simp [release, holder, setHolder, hu]
    generalize (if s₁.params.decodeFault = true then draw.decodeFault else none) = o
    cases o with
    | none =>
      obtain ⟨u, hu⟩ := extractTimes_next (extractions s₂) s₂
      obtain ⟨h1, -, h3, h4, h5⟩ := extractTimes_frame hu
      simp only [hu]
      refine ⟨_, rfl, ?_⟩
      rw [done u (by rw [h1]; exact hr2)]
      subst hs2 hs
      rw [h1]
      exact ⟨rfl, h4, h5, h3, .inl rfl, .inl rfl⟩
    | some d =>
      obtain ⟨u, hu⟩ := extractTimes_next (min d.pushed (extractions s₂)) s₂
      obtain ⟨h1, -, h3, h4, h5⟩ := extractTimes_frame hu
      simp only [hu]
      refine ⟨_, rfl, ?_⟩
      rw [done _ (by simp only [absorbDecodeError, logEvent]; rw [h1]; exact hr2)]
      subst hs2 hs
      rw [h1]
      exact ⟨rfl, h4, .inr (by simp [absorbDecodeError, logEvent, returnOk]), h3, .inr ⟨d.info, rfl⟩, .inl rfl⟩
  · refine ⟨_, by simp only [serveArrival, hd]; rfl, ?_⟩
    simp [release, holder, hp, setHolder, hr, raise]

/-- `RX_ARRIVE` from free arbiters, where a notification is pending and the port open. -/
theorem rxArrive_eq {id : Nat} {draw : ArriveDraw} {s : State} (hr : s.rxLock = none) (hp : s.portLock = none)
    (ho : s.portOpen = true) (ha : 0 < s.arrivals) :
    rxArrive id draw s =
      some (serveArrival (.arrival id) draw { s with
        arrivals := s.arrivals - 1, rxLock := some (.arrival id), portLock := some (.arrival id) }) := by
  rw [rxArrive, if_neg (by simp [ho]), if_neg (by omega)]
  simp [acquire, holder, setHolder, hr, hp]

/-- Where `RX_ARRIVE` answers a next state. -/
theorem rxArrive_next {id : Nat} {draw : ArriveDraw} {s t : State} (h : rxArrive id draw s = some (.next t)) :
    s.rxLock = none ∧ s.portLock = none ∧ s.portOpen = true ∧ 0 < s.arrivals ∧
      serveArrival (.arrival id) draw { s with
        arrivals := s.arrivals - 1, rxLock := some (.arrival id), portLock := some (.arrival id) } = .next t := by
  by_cases ho : s.portOpen = true
  case neg => simp [rxArrive, ho] at h
  by_cases ha : s.arrivals = 0
  · simp [rxArrive, ho, ha] at h
  cases hr : s.rxLock with
  | some x => simp [rxArrive, ho, ha, acquire, holder, hr] at h
  | none =>
    cases hp : s.portLock with
    | some x => simp [rxArrive, ho, ha, acquire, holder, setHolder, hr, hp] at h
    | none =>
      rw [rxArrive_eq hr hp ho (by omega)] at h
      exact ⟨rfl, rfl, ho, by omega, Option.some.inj h⟩

/-! ### The bus operations -/

/-- A bus operation answers only the poll/dispatch agent, and only between two `pollOnce`s (R171, R198). -/
theorem onPollAgent_next {caller : Agent} {s t : State} {op : Option Out}
    (h : onPollAgent caller s op = some (.next t)) :
    caller = .poll ∧ s.host.poll = .idle ∧ op = some (.next t) := by
  unfold onPollAgent at h
  split at h
  · cases h
  · split at h
    · cases h
    · rename_i h1 h2
      exact ⟨by simpa using h1, by simpa using h2, h⟩

/-- What follows a sent Set changes nothing but the host, and the pending items where `U6` puts them back. -/
theorem afterSet_eq (a : Byte) (old c : Controller) (s : State) :
    afterSet a old c s = { s with
      ctrlMap := (afterSet a old c s).ctrlMap, host := (afterSet a old c s).host } ∧
    ((afterSet a old c s).ctrlMap = s.ctrlMap ∨
      (afterSet a old c s).ctrlMap = mapModify s.ctrlMap a (fun _ => restorePending old c)) ∧
    ∃ p, (afterSet a old c s).host = { s.host with poll := p } ∨
      (afterSet a old c s).host = { storeSet (targetOf s.params c) s.host with poll := p } := by
  unfold afterSet
  split
  · refine ⟨rfl, ?_, ?_⟩
    · simp only [afterFailedSet]
      split
      · exact .inr rfl
      · exact .inl rfl
    · simp only [afterFailedSet]
      split
      · exact ⟨_, .inr rfl⟩
      · exact ⟨_, .inl rfl⟩
  · exact ⟨rfl, .inl rfl, _, .inr rfl⟩

/-- Where a step of `pollOnce` answers a next state. -/
theorem pollStep_next {caller : Agent} {draw : PollDraw} {s t : State}
    (h : pollStep caller draw s = some (.next t)) :
    caller = .poll ∧ s.portLock = none ∧
      (pollBroadcast draw.write s = .next t ∨
        ∃ a c c' u, s.host.poll = .idle ∧ firstDirty s.ctrlMap = some (a, c) ∧
          applyPending s.params s.host draw c = some c' ∧
          exec (.set c.address Config.masterAddr c'.jumperTarget (ohmToByte s.params c'.requiredOhms)
              s.params.setDifficulty s.params.setStatus)
            { s with ctrlMap := mapModify s.ctrlMap a (fun _ => c'), stage := .send .poll draw.write } = .next u ∧
          t = afterSet a c c' u) := by
  unfold pollStep at h
  split at h
  · cases h
  rename_i hc
  split at h
  · cases h
  rename_i hp
  refine ⟨by simpa using hc, by simpa using hp, ?_⟩
  split at h
  · exact .inl (Option.some.inj h)
  · rename_i hi
    split at h
    · exact .inl (Option.some.inj h)
    · rename_i a c hf
      obtain ⟨c', hc', hs⟩ := Option.map_eq_some_iff.1 h
      have ha := applyPending_address hc'
      rw [sendTarget, ha] at hs
      split at hs
      · rename_i u hu
        exact .inr ⟨a, c, c', u, hi, hf, hc', hu, (Host.Outcome.next.inj hs).symm⟩
      · rename_i o hno
        exact absurd hs (hno t)

/-! ### The host's store -/

theorem hostOk_storeSet {h : HostSide} (ok : HostOk h) (t : UnitTarget) : HostOk (storeSet t h) := by
  obtain ⟨h1, h2, h3, h4, h5⟩ := ok
  refine ⟨storeOk_mapSet h1 t, h2, addrsOk_addrInsert h3 _, ?_, ?_⟩
  · intro a ha
    simp only [storeSet, mapGet_mapSet]
    split
    · rfl
    · rename_i hne
      rcases (mem_addrInsert _ _ _).1 ha with rfl | ha
      · exact absurd rfl hne
      · exact h4 a ha
  · intro fl hfl
    obtain ⟨fl', hfl', rfl⟩ := Option.map_eq_some_iff.1 hfl
    obtain ⟨f1, f2, f3, f4⟩ := h5 fl' hfl'
    exact ⟨f1, f2, addrsOk_addrInsert f3 _, fun a ha => (mem_addrInsert _ _ _).2 (.inr (f4 a ha))⟩

theorem hostOk_loadAll {h : HostSide} (ok : HostOk h) (p : Config.Params) : HostOk (loadAll p h) := by
  obtain ⟨-, h2, -, -, -⟩ := ok
  refine ⟨?_, h2, List.Pairwise.nil, by simp [loadAll], by simp [loadAll]⟩
  simp only [loadAll]
  split
  · exact ⟨List.Pairwise.nil, by simp⟩
  · exact h2

theorem saveRow_cases (p : Config.Params) (h : HostSide) (a : Byte) :
    saveRow p h a = h.saved ∨ ∃ t, mapGet h.store a = some t ∧ saveRow p h a = mapSet h.saved a t := by
  unfold saveRow
  split
  · exact .inl rfl
  · split
    · exact .inr ⟨_, ‹_›, rfl⟩
    · exact .inl rfl

theorem hostOk_flushStep {p : Config.Params} {ok : Bool} {h h' : HostSide} (hok : HostOk h)
    (hf : flushStep p ok h = some h') : HostOk h' := by
  obtain ⟨h1, h2, h3, h4, h5⟩ := hok
  unfold flushStep at hf
  split at hf
  · split at hf
    · cases hf
    · rename_i hne
      obtain rfl := Option.some.inj hf
      exact ⟨h1, h2, h3, h4, fun fl hfl => by
        obtain rfl := Option.some.inj hfl
        exact ⟨hne, h3, List.Pairwise.nil, fun a ha => ha⟩⟩
  · rename_i fl hfl
    obtain ⟨f1, f2, f3, f4⟩ := h5 fl hfl
    split at hf
    · exact absurd ‹_› f1
    · rename_i a rest htodo
      rw [htodo] at f2 f4
      obtain ⟨hlt, f2'⟩ := (addrsOk_cons a rest).1 f2
      split at hf <;> obtain rfl := Option.some.inj hf
      · refine ⟨h1, ?_, ?_, ?_, ?_⟩
        · rcases saveRow_cases p h a with e | ⟨t, ht, e⟩ <;> simp only [e]
          · exact h2
          · have : t.address = a := h1.2 _ (mapGet_mem ht)
            have := storeOk_mapSet h2 t
            rwa [‹t.address = a›] at this
        · simp only
          split
          · exact h3
          · exact addrsOk_addrErase h3 a
        · intro x hx
          apply h4
          simp only at hx
          split at hx
          · exact hx
          · exact ((mem_addrErase _ _ _).1 hx).1
        · intro fl' hfl'
          simp only at hfl'
          cases rest with
          | nil => cases hfl'
          | cons b rest =>
            obtain rfl := Option.some.inj hfl'
            refine ⟨by simp, f2', f3, fun x hx => ?_⟩
            simp only at hx ⊢
            split
            · exact f4 x (List.mem_cons_of_mem _ hx)
            · refine (mem_addrErase _ _ _).2 ⟨f4 x (List.mem_cons_of_mem _ hx), ?_⟩
              rintro rfl
              exact absurd (hlt x hx) (Nat.lt_irrefl _)
      · refine ⟨h1, h2, h3, h4, ?_⟩
        intro fl' hfl'
        simp only at hfl'
        cases rest with
        | nil => cases hfl'
        | cons b rest =>
          obtain rfl := Option.some.inj hfl'
          exact ⟨by simp, f2', f3, fun x hx => f4 x (List.mem_cons_of_mem _ hx)⟩

end Machine
end Sys2Proof
end

