-- ==== Sys2Proof/Laws/Crc.lean ====
section
/-! SUPPORT. The CRC register is linear over GF(2): one bit, one byte (spec/40_crc16.md R100). Facts about a word
then follow from facts about its two bytes, of which there are 256 each. -/

namespace Sys2Proof

/-- One message bit: shift, reduce, and the bit comes in at bit 0. -/
theorem crcBit_eq (acc : Word) (bit : Bool) :
    crcBit acc bit =
      ((acc <<< 1) ^^^ (if acc.getLsbD 15 then crcPoly else 0)) ^^^ (BitVec.ofBool bit).setWidth 16 := by
  have hor : (acc <<< 1) ||| (BitVec.ofBool bit).setWidth 16 = (acc <<< 1) ^^^ (BitVec.ofBool bit).setWidth 16 := by
    apply BitVec.eq_of_getLsbD_eq
    intro i hi
    rcases Nat.eq_zero_or_pos i with rfl | hpos
    · simp
    · have : (BitVec.ofBool bit).getLsbD i = false := BitVec.getLsbD_of_ge _ _ hpos
      simp [this]
  unfold crcBit
  rw [hor]
  split
  · rw [BitVec.xor_assoc, BitVec.xor_comm _ crcPoly, ← BitVec.xor_assoc]
  · rw [show (0 : Word) = 0#16 from rfl, BitVec.xor_zero]

theorem crcBit_xor (a b : Word) (x y : Bool) : crcBit (a ^^^ b) (x ^^ y) = crcBit a x ^^^ crcBit b y := by
  have hx : (BitVec.ofBool (x ^^ y)).setWidth 16 = (BitVec.ofBool x).setWidth 16 ^^^ (BitVec.ofBool y).setWidth 16 := by
    cases x <;> cases y <;> rfl
  have hp : (if (a ^^^ b).getLsbD 15 then crcPoly else 0) =
      (if a.getLsbD 15 then crcPoly else 0) ^^^ (if b.getLsbD 15 then crcPoly else (0 : Word)) := by
    rw [BitVec.getLsbD_xor]
    cases a.getLsbD 15 <;> cases b.getLsbD 15 <;> decide
  rw [crcBit_eq, crcBit_eq, crcBit_eq, hx, hp, BitVec.shiftLeft_xor_distrib]
  ac_rfl

/-- One message byte is linear. -/
theorem crcByte_xor (a b : Word) (x y : Byte) : crcByte (a ^^^ b) (x ^^^ y) = crcByte a x ^^^ crcByte b y := by
  simp only [crcByte, List.foldl, BitVec.getLsbD_xor, crcBit_xor]

theorem crcByte_zero_left (b : Byte) : crcByte 0 b = b.setWidth 16 := by
  revert b
  decide +kernel

/-- A word is its two bytes. -/
theorem word_eq_bytes (w : Word) : w = ((hi8 w).setWidth 16 <<< 8) ^^^ (lo8 w).setWidth 16 := by
  apply BitVec.eq_of_getLsbD_eq
  intro i hi
  simp only [lo8, hi8, BitVec.getLsbD_xor, BitVec.getLsbD_shiftLeft, BitVec.getLsbD_setWidth,
    BitVec.getLsbD_extractLsb', hi, decide_true, Bool.true_and]
  by_cases h : i < 8
  · simp [h]
  · simp [h, show i - 8 < 8 by omega, show 8 + (i - 8) = i by omega, hi,
      show i - 8 < 16 by omega]

theorem toNat_trailerWord (t0 t1 : Byte) : (trailerWord t0 t1).toNat = t0.toNat + 256 * t1.toNat := by
  have h0 := t0.isLt
  have h1 := t1.isLt
  have hs : (t1.setWidth 16 <<< 8).toNat = 256 * t1.toNat := by
    simp only [BitVec.toNat_shiftLeft, BitVec.toNat_setWidth, Nat.shiftLeft_eq]
    omega
  have := Nat.two_pow_add_eq_or_of_lt (i := 8) (b := t0.toNat) (by simpa using h0) t1.toNat
  rw [trailerWord, BitVec.toNat_or, hs, BitVec.toNat_setWidth, Nat.mod_eq_of_lt (by omega), Nat.or_comm,
    show 256 * t1.toNat = 2 ^ 8 * t1.toNat from rfl, ← this]
  omega

@[simp] theorem lo8_trailerWord (t0 t1 : Byte) : lo8 (trailerWord t0 t1) = t0 := by
  apply BitVec.eq_of_toNat_eq
  have h0 := t0.isLt
  simp only [lo8, BitVec.extractLsb'_toNat, toNat_trailerWord]
  omega

@[simp] theorem hi8_trailerWord (t0 t1 : Byte) : hi8 (trailerWord t0 t1) = t1 := by
  apply BitVec.eq_of_toNat_eq
  have h0 := t0.isLt
  have h1 := t1.isLt
  simp only [hi8, BitVec.extractLsb'_toNat, toNat_trailerWord, Nat.shiftRight_eq_div_pow]
  omega

end Sys2Proof
end

