-- ==== Sys2Proof/Laws/PerInstr.lean ====
section
/-! SUPPORT. Statements about every command frame as syntax, one lemma a constructor. -/

namespace Sys2Proof
namespace Laws
namespace EncodedLength

/-- The encoding of a well-formed frame has its wire length, which is 9 for a Set and 5 for the others
(spec/30_encoding.md R70). -/
def Statement (i : Instr) : Prop :=
  i.wf → (encode i).length = i.wireLen ∧ i.wireLen = if i.frame.kind = .set then 9 else 5

theorem ack (dest sender : Byte) : Statement (.ack dest sender) := fun h => ⟨encode_length _ h, rfl⟩

theorem nack (dest sender : Byte) : Statement (.nack dest sender) := fun h => ⟨encode_length _ h, rfl⟩

theorem set (dest sender analog digit difficulty status : Byte) :
    Statement (.set dest sender analog digit difficulty status) := fun h => ⟨encode_length _ h, rfl⟩

theorem get (dest sender : Byte) : Statement (.get dest sender) := fun h => ⟨encode_length _ h, rfl⟩

theorem unknown (code dest sender : Byte) : Statement (.unknown code dest sender) := by
  intro h
  refine ⟨encode_length _ h, ?_⟩
  have hk : kindOf code = .unknown := (kindOf_unknown_iff code).2 h
  have hc : code ≠ Config.codeSet := isUnknownCode_ne_set h
  simp [Instr.wireLen, Frame.kind, Instr.frame, Frame.header, hk, flen_of_ne hc, Config.trailerLen]

end EncodedLength
end Laws
end Sys2Proof
end

