-- ==== Sys2Proof/Tests/Slice0.lean ====
section
/-! SUPPORT. The model's own tests. Expected bytes are written out from spec/30_encoding.md R71, R72 and the command
codes of R74, with trailers from spec/95_test_vectors.md; expected states are those of the vectors named beside them.
Theorems `witness_<Name>` show that the hypotheses of the statement `Obligations.<Name>` can be met. -/

namespace Sys2Proof
namespace Tests
open Machine

set_option Elab.async false

/-! ### Well-formedness -/

/-- The four codes that are no Unknown frame's (R74), and the neighbours that are. -/
theorem test_wf_refuses_named_codes :
    (Instr.unknown 0x00 0x80 0x05).wf = false ∧ (Instr.unknown 0x01 0x80 0x05).wf = false ∧
      (Instr.unknown 0x03 0x80 0x05).wf = false ∧ (Instr.unknown 0x04 0x80 0x05).wf = false ∧
      (Instr.unknown 0x02 0x80 0x05).wf = true ∧ (Instr.unknown 0x05 0x80 0x05).wf = true ∧
      (Instr.unknown 0xFF 0x80 0x05).wf = true := by decide

/-- A payload on a non-Set code, and a Set code without one (R14). -/
theorem test_wf_refuses_ill_formed_records :
    Frame.wf ⟨0x05, 0x80, 0x04, some ⟨0, 0, 0, 0⟩⟩ = false ∧ Frame.wf ⟨0x05, 0x80, 0x03, none⟩ = false ∧
      encodeFrame ⟨0x05, 0x80, 0x04, some ⟨0, 0, 0, 0⟩⟩ = none ∧ encodeFrame ⟨0x05, 0x80, 0x03, none⟩ = none := by
  decide +kernel

/-! ### Decoding, bit by bit from the patterns of R71 and R72 -/

/-- The Ack of V2. -/
theorem test_decode_ack :
    decode [0b10000000, 0b00000101, 0b00000000, 0b10001000, 0b10010100] = .ok (.ack 0x80 0x05, []) := by
  decide +kernel

/-- The NAck of R162. -/
theorem test_decode_nack :
    decode [0b10000000, 0b00000101, 0b00000001, 0b10001001, 0b10010100] = .ok (.nack 0x80 0x05, []) := by
  decide +kernel

/-- The Set of V3: four payload bytes in the order analog, digit, difficulty, status. -/
theorem test_decode_set :
    decode [0b10000000, 0b00000101, 0b00000011, 0b01101000, 0b11110010, 0b00000100, 0b10000000, 0b10011011,
      0b10001110] = .ok (.set 0x80 0x05 0x68 0xF2 0x04 0x80, []) := by decide +kernel

/-- The Get of V1: destination before sender. -/
theorem test_decode_get :
    decode [0b00000101, 0b10000000, 0b00000100, 0b10100001, 0b11010000] = .ok (.get 0x05 0x80, []) := by
  decide +kernel

/-- The Unknown frames of V27. -/
theorem test_decode_unknown :
    decode [0b10000000, 0b00000101, 0b00000010, 0b10001010, 0b10010100] = .ok (.unknown 0x02 0x80 0x05, []) ∧
      decode [0b10000000, 0b00000101, 0b11111111, 0b01110111, 0b10010100] = .ok (.unknown 0xFF 0x80 0x05, []) := by
  decide +kernel

/-- One opcode-table word per row (R79): the command byte selects the row. -/
theorem test_table_words :
    decodeTableWord 8 0x00 = some (.ack 0 0) ∧ decodeTableWord 8 0x01 = some (.nack 0 0) ∧
      decodeTableWord 8 0x03 = some (.set 0 0 0 0 0 0) ∧ decodeTableWord 8 0x04 = some (.get 0 0) ∧
      decodeTableWord 8 0x02 = some (.unknown 0x02 0 0) ∧ decodeTableWord 8 0xFF = some (.unknown 0xFF 0 0) := by
  decide +kernel

/-- V26: false synchronisation, two noise bytes and an Ack read as an Unknown frame. -/
theorem test_false_synchronisation :
    extract [0x27, 0x54, 0x80, 0x05, 0x00, 0x88, 0x94] = (some (.unknown 0x80 0x27 0x54), [0x88, 0x94]) := by
  decide +kernel

/-- V25: a corrupted Set is shifted over, nine bytes in one invocation. -/
theorem test_resync_over_a_corrupted_set :
    extract [0x80, 0x05, 0x03, 0x68, 0xF2, 0x04, 0x80, 0x9B, 0x8F, 0x80, 0x05, 0x00, 0x88, 0x94] =
      (some (.ack 0x80 0x05), []) := by decide +kernel

/-- R100, R103: the register after each byte of the worked example; the bits of 0x68. -/
theorem test_byteUtils :
    crc16 [0x80] = 0x0080 ∧ crc16 [0x80, 0x05] = 0x8005 ∧ crc16 [0x80, 0x05, 0x00] = 0x9488 ∧
      popcount 0x68 = 3 ∧ crcXmodem [0x31, 0x32, 0x33, 0x34, 0x35, 0x36, 0x37, 0x38, 0x39] = 0x31C3 := by
  decide +kernel

/-! ### Small states -/

/-- Example parameters; the open ones are examples only. -/
def p0 : Config.Params where
  extracts := .once
  destFilter := false
  decodeFault := false
  ohmRound := .trunc
  restoreInCodes := false
  setDifficulty := 0x00
  setStatus := 0x00
  initOhms := 1000
  initJumper := 0x68
  autoRestore := true
  repairThreshold := 987
  unitAddrs := [0x05, 0x06]
  pollPeriod := 1000000000
  noopPersistence := false
  storeOnFault := false
  restoreOnFault := false
  broadcastAfterFault := false

/-- A new controller of unit 5. -/
def c5 : Controller := freshController p0 0x05

/-- After reset and `OPEN_PORT`, with the controllers 5 and 6 registered. -/
def s0 : State :=
  { State.reset with params := p0, portOpen := true, ctrlMap := [(0x05, c5), (0x06, freshController p0 0x06)] }

/-- `s0` with a dirty controller 5. -/
def sDirty : State :=
  { s0 with ctrlMap := [(0x05, { c5 with pendingAutoRestore := some 1000 }), (0x06, freshController p0 0x06)] }

/-- The state that an outcome answers. -/
def nextOf : Out → Option State
  | .next t => some t
  | _ => none

/-- The state that an operation answers. -/
def ran (a : Action) (s : State) : Option State := (runAction a s).bind nextOf

/-- The target of V42 for 1000 ohms. -/
def target5 : UnitTarget := ⟨0x05, 0x17, 0x68⟩

theorem s0_inv : Inv s0 := by
  refine ⟨?_, ?_, ?_, ?_, ?_⟩
  · decide +kernel
  · decide +kernel
  · refine ⟨?_, ?_, ?_, ?_⟩ <;> simp [s0, State.reset]
  · decide +kernel
  · refine ⟨by decide +kernel, by decide +kernel, by decide +kernel, by decide +kernel, ?_⟩
    simp [s0, State.reset, HostSide.reset]

/-! ### One step each -/

/-- V36 first part: the Ack reaches controller 5 alone. -/
theorem test_ack_step :
    (ran (.dispatch .poll) { s0 with delivQ := [(Instr.ack 0x80 0x05).frame], host := { s0.host with now := 7 } }).map
        (fun t => (mapGet t.ctrlMap 0x05, mapGet t.ctrlMap 0x06, t.delivQ)) =
      some (some { c5 with lastUpdated := some 7, everConnected := true }, some (freshController p0 0x06), []) := by
  decide +kernel

/-- V40: a NAck leaves the controller Unknown. -/
theorem test_nack_step :
    (ran (.dispatch .poll) { s0 with delivQ := [(Instr.nack 0x80 0x05).frame] }).map (·.ctrlMap) =
      some s0.ctrlMap := by decide +kernel

/-- V41, with P3 variant B: the payload is stored, status bit 7 merged; 172857 ohms differ from 1000. -/
theorem test_set_step :
    (ran (.dispatch .poll) { s0 with delivQ := [(Instr.set 0x80 0x05 0x68 0xF2 0x04 0x80).frame] }).bind
        (fun t => mapGet t.ctrlMap 0x05) =
      some { c5 with
        lastStatus := some ⟨0x68, 0xF2, 0x04, 0x80⟩, needsFreshTarget := true, pendingAutoRestore := some 1000,
        lastUpdated := some 0, everConnected := true } := by decide +kernel

/-- V37: the echo of the poll is unrouted. -/
theorem test_get_step :
    (ran (.dispatch .poll) { s0 with delivQ := [(Instr.get 0xF0 0x80).frame] }).map (fun t => (t.log, t.ctrlMap)) =
      some ([.unrouted (Instr.get 0xF0 0x80).frame], s0.ctrlMap) := by decide +kernel

/-- R165: an Unknown frame is delivered and changes no controller. -/
theorem test_unknown_step :
    (ran (.dispatch .poll) { s0 with delivQ := [(Instr.unknown 0x02 0x80 0x05).frame] }).map
        (fun t => (t.log, t.ctrlMap)) = some ([], s0.ctrlMap) := by decide +kernel

/-- V31: the second of two sends faults, `PORT_OUT` keeps the first frame. -/
theorem test_busy_send :
    (ran (.send (.sender 1) (Instr.get 0x05 0x80).frame none) { s0 with portOut := [0xF0, 0x80, 0x04, 0x1B, 0x6F] }).map
        (fun t => (t.portOut, t.faults, t.portLock)) =
      some ([0xF0, 0x80, 0x04, 0x1B, 0x6F], [.writeWhileBusy (Instr.get 0x05 0x80).frame], none) := by
  decide +kernel

/-- P3 step 1: the Set of the poll tick, byte for byte, and the stored target. -/
theorem test_poll_set :
    (ran (.poll .poll {}) { sDirty with ctrlMap := [(0x05, { c5 with pendingAutoRestore := some 1000 })] }).map
        (fun t => (t.portOut, t.host.store, t.host.poll)) =
      some ([0x05, 0x80, 0x03, 0x68, 0x17, 0x00, 0x00, 0x6A, 0x47], [(0x05, target5)], .broadcast) := by
  decide +kernel

/-- A table word is fetched and run as the first instruction after reset. -/
theorem test_first_instruction :
    (nextOf (step (State.reset.withFetchWord 8 0x03))).map (fun t => (t.fr, t.delivQ, t.rxBuf)) =
      some (some (Instr.set 0 0 0 0 0 0).frame, [(Instr.set 0 0 0 0 0 0).frame], []) := by decide +kernel

/-- The views of R18 and R244, and the raiser of a record (R24): the end state of P5, and bits 5 to 7. -/
theorem test_views :
    quiescent { s0 with rxBuf := [0x02, 0x20, 0x14, 0x23] } = true ∧ quiescent { s0 with arrivals := 1 } = false ∧
      txBusy { s0 with portOut := [0x6F] } = true ∧ resistorOk 0x20 = false ∧ jumpersOk 0x20 = true ∧
      freshRequested 0x80 = true ∧ assignStatusBit 0x00 6 true = 0x40 ∧ assignStatusBit 0xFF 5 false = 0xDF ∧
      (FaultRecord.ioTimeout .atRead).raiser = .rxArrive := by decide +kernel

/-- V42: the nominal set under truncation and under rounding to nearest, and back. -/
theorem test_ohms :
    Config.nominalOhms.map ohmToByteTrunc = [23, 42, 86, 103, 139, 164, 153, 214] ∧
      Config.nominalOhms.map ohmToByteNearest = [23, 43, 86, 104, 140, 165, 154, 214] ∧
      ([0x00, 0x80, 0xF2, 0xFF].map byteToOhm) = [0, 10000, 172857, 2550000] := by decide +kernel

/-! ### Witnesses: the codec -/

theorem witness_EncodeThenExtractRoundTrip :
    Frame.wf ⟨0x05, 0x80, 0x03, some ⟨0x68, 0xF2, 0x04, 0x80⟩⟩ = true ∧ Frame.wf ⟨0x00, 0xFF, 0x02, none⟩ = true ∧
      extract [0xFF, 0x05, 0x80, 0x04, 0xA1, 0xD0, 0x80] = (some (.get 0x05 0x80), [0x80]) := by decide +kernel

theorem witness_AcceptedBytesAreEncodings :
    decode [0x05, 0x80, 0x04, 0xA1, 0xD0, 0x77] = .ok (.get 0x05 0x80, [0x77]) ∧
      (Instr.unknown 0xFF 0x80 0x05).wf = true ∧ (Instr.get 0x05 0x80).wf = true := by decide +kernel

theorem witness_DecoderTestsInOrder :
    decode [0x80, 0x05] = .error .tooShort ∧ decode [0x80, 0x05, 0x00, 0x88] = .error .incomplete ∧
      decode [0x80, 0x05, 0x03, 0x68, 0xF2, 0x04, 0x80, 0x9B] = .error .incomplete ∧
      decode [0x80, 0x05, 0x00, 0x88, 0x95] = .error .crcMismatch ∧
      (decode [0x00, 0x00, 0x00, 0x00, 0x00]) = .ok (.ack 0x00 0x00, []) := by decide +kernel

theorem witness_ExtractStopsAtFirstShortOrValidSuffix :
    decode ([0x3C, 0xFF, 0x05, 0x80, 0x04, 0xA1, 0xD0, 0x80].drop 2) = .ok (.get 0x05 0x80, [0x80]) ∧
      decode ([0x3C, 0xFF, 0x05, 0x80, 0x04].drop 1) = .error .incomplete ∧
      extract [0x3C, 0xFF, 0x05, 0x80, 0x04] = (none, [0xFF, 0x05, 0x80, 0x04]) := by decide +kernel

theorem witness_ResyncDropsOneByteAndTerminates :
    decode [0xFF, 0x05, 0x80, 0x04, 0xA1, 0xD0] = .error .crcMismatch ∧
      decode [0x05, 0x80, 0x04, 0xA1, 0xD0] ≠ .error .crcMismatch := by decide +kernel

theorem witness_IncompleteHeadIsLeftUnchanged :
    [0x80, 0x05].length < 3 ∧
      [0x80, 0x05, 0x03, 0x68, 0xF2, 0x04, 0x80, 0x9B].length < flen (byteAt [0x80, 0x05, 0x03, 0x68] 2) + 2 ∧
      decode [0xFF, 0x05, 0x80, 0x04, 0xA1] = .error .crcMismatch ∧
      extract [0xFF, 0x05, 0x80, 0x04, 0xA1] = (none, [0x05, 0x80, 0x04, 0xA1]) := by decide +kernel

theorem witness_LengthAndKindOfEveryCode :
    (Instr.set 0x80 0x05 0x68 0xF2 0x04 0x80).wf = true ∧ (Instr.unknown 0x02 0x80 0x05).wf = true := by decide

theorem witness_WireLayoutOfEveryFrame : isUnknownCode 0x02 = true ∧ isUnknownCode 0x05 = true := by decide

theorem witness_CrcIsLinear : ([0x80, 0x05, 0x00] : List Byte).length = ([0x00, 0x00, 0x01] : List Byte).length := by
  decide

/-- V28. -/
theorem witness_PairedBitErrorsPassTheCrc :
    (0x00 : Byte) ≠ 0x03 ∧ (0x00 : Byte) ^^^ 0x01 ≠ 0x03 ∧
      decode [0x80, 0x05, 0x00, 0x88, 0x94] = .ok (.ack 0x80 0x05, []) := by decide +kernel

/-! ### Witnesses: the five frames -/

theorem witness_ReceivedFrameIsDelivered :
    s0.stage = .receive ∧
      (∀ i ∈ [Instr.ack 0x80 0x05, .nack 0x80 0x05, .get 0x05 0x80, .unknown 0x02 0x80 0x05],
        i.wf = true ∧ i.wireLen ≤ (List.replicate 5 (0x00 : Byte)).length) ∧
      (Instr.set 0x80 0x05 0 0 0 0).wireLen ≤ (List.replicate 9 (0x00 : Byte)).length := by decide +kernel

theorem witness_IllFormedOrTooLongIsRefused :
    (Instr.unknown 0x03 0x80 0x05).wf = false ∧ s0.stage = .receive ∧
      (List.replicate 4 (0x00 : Byte)).length < (Instr.ack 0x80 0x05).wireLen ∧
      (List.replicate 8 (0x00 : Byte)).length < (Instr.set 0x80 0x05 0 0 0 0).wireLen := by decide +kernel

/-- A state in which `DISPATCH` has popped a frame. -/
def sPopped : State := { s0 with stage := .dispatch }

/-- The same with `DEST_FILTER` on. -/
def sFilter : State := { sPopped with params := { p0 with destFilter := true } }

theorem witness_AckMarksControllerConnected :
    sPopped.stage = .dispatch ∧ (sPopped.params.destFilter = true → (0x06 : Byte) = 0x80) ∧
      (sFilter.params.destFilter = true → (0x80 : Byte) = 0x80) ∧ mapGet sPopped.ctrlMap 0x05 = some c5 := by
  decide +kernel

/-- Both ends of the eligibility of R188: 987 ohms stand at the threshold, 0xFF is the disconnected reading, and a
reading equal to the target differs from nothing. -/
theorem witness_SetUpdatesController :
    sPopped.stage = .dispatch ∧ (sPopped.params.destFilter = true → (0x80 : Byte) = 0x80) ∧
      mapGet sPopped.ctrlMap 0x05 = some c5 ∧ sPopped.params.autoRestore = true ∧
      sPopped.params.restoreInCodes = false ∧ byteToOhm 0x17 ≠ c5.requiredOhms ∧
      sPopped.params.repairThreshold = byteToOhm 0x17 ∧ byteToOhm 0x17 ≠ 2550000 ∧ byteToOhm 0xFF = 2550000 ∧
      byteToOhm 0x16 < sPopped.params.repairThreshold := by decide +kernel

theorem witness_NackGetUnknownChangeNoController :
    sPopped.stage = .dispatch ∧ (sPopped.params.destFilter = true → (0x80 : Byte) = 0x80) ∧
      (mapGet sPopped.ctrlMap 0x05).isSome = true ∧ isUnknownCode 0x02 = true ∧ isUnknownCode 0xFF = true := by
  decide +kernel

theorem witness_UnroutedFrameIsLogged :
    (Instr.ack 0x80 0x07).wf = true ∧ sPopped.stage = .dispatch ∧
      (sPopped.params.destFilter = true → (0x80 : Byte) = 0x80) ∧ mapGet sPopped.ctrlMap 0x07 = none ∧
      (Instr.get 0xF0 0x80).frame.wf = true ∧ BetweenSteps s0 ∧ s0.host.poll = .idle ∧
      mapGet s0.ctrlMap 0x80 = none ∧ CtrlMapOk s0.ctrlMap := by decide +kernel

theorem witness_DestinationIsTestedOnlyByTheFilter :
    (Instr.ack 0x80 0x05).wf = true ∧ (Instr.ack 0x06 0x05).wf = true ∧ sPopped.stage = .dispatch ∧
      sPopped.params.destFilter = false ∧
      (Instr.ack 0x06 0x05).frame = { (Instr.ack 0x80 0x05).frame with dest := 0x06 } ∧
      (mapGet sPopped.ctrlMap 0x05).isSome = true ∧ sFilter.stage = .dispatch ∧ sFilter.params.destFilter = true ∧
      (Instr.ack 0x06 0x05).frame.dest ≠ 0x80 := by decide +kernel

/-- A state in which a sender runs `SEND`. -/
def sSend (timeout : Option Nat) : State := { s0 with stage := .send (.sender 1) timeout }

theorem witness_SendWritesTheWholeFrame :
    (Instr.get 0x05 0x80).wf = true ∧ (Instr.get 0x05 0x80).frame.sender = 0x80 ∧
      (sSend none).stage = .send (.sender 1) none ∧ (sSend none).portOpen = true ∧ (sSend none).portLock = none ∧
      (sSend none).portOut = [] ∧
      ∀ i ∈ [Instr.ack 0x05 0x80, .nack 0x05 0x80, .set 0x05 0x80 0 0 0 0, .unknown 0x02 0x05 0x80],
        i.wf = true ∧ i.frame.sender = 0x80 := by decide +kernel

/-- V32: one remaining byte is busy. -/
theorem witness_BusySendFaultsAndWritesNothing :
    (Instr.get 0x05 0x80).wf = true ∧ (Instr.get 0x05 0x80).frame.sender = 0x80 ∧
      { sSend none with portOut := [0x6F] }.stage = .send (.sender 1) none ∧
      { sSend none with portOut := [0x6F] }.portOpen = true ∧
      { sSend none with portOut := [0x6F] }.portLock = none ∧ { sSend none with portOut := [0x6F] }.portOut ≠ [] := by
  decide +kernel

theorem witness_WriteTimeoutLeavesAPrefix :
    (Instr.get 0x05 0x80).wf = true ∧ (Instr.get 0x05 0x80).frame.sender = 0x80 ∧
      (∀ k ∈ [0, 5, 6], (sSend (some k)).stage = .send (.sender 1) (some k)) ∧ (sSend (some 0)).portOpen = true ∧
      (sSend (some 0)).portLock = none ∧ (sSend (some 0)).portOut = [] := by decide +kernel

theorem witness_ForbiddenSendsAreRefused :
    Frame.wf ⟨0x05, 0x80, 0x03, none⟩ = false ∧ s0.host.poll = .idle ∧ (Instr.get 0x05 0x81).wf = true ∧
      (sSend none).stage = .send (.sender 1) none ∧ (Instr.get 0x05 0x81).frame.sender ≠ 0x80 ∧
      (Instr.get 0x05 0x80).frame.sender = 0x80 ∧ { sSend none with portOpen := false }.portOpen = false := by
  decide +kernel

theorem witness_FrameOfEveryCommandFrame :
    (nextOf (exec (.ack 0x80 0x05) { s0 with rxBuf := [0x80, 0x05, 0x00, 0x88, 0x94] })).isSome = true ∧
      (nextOf (exec (.ack 0x80 0x05) sPopped)).isSome = true ∧
      (nextOf (exec (.get 0x05 0x80) (sSend none))).isSome = true := by decide +kernel

/-! ### Witnesses: the transport -/

theorem witness_LineDrainTakesTheFront :
    1 ≤ 1 ∧ 1 ≤ { s0 with portOut := [0x6F] }.portOut.length ∧ { s0 with portOut := [0x6F] }.portOut.length < 2 ∧
      s0.portOut.length < 1 := by decide +kernel

/-- A state with bytes and one notification pending. -/
def sArrived : State := { s0 with rxBuf := [0x80, 0x05, 0x00], portIn := [0x88, 0x94], arrivals := 1 }

theorem witness_ArrivalDeliversAtMostOneFrame :
    BetweenSteps sArrived ∧ sArrived.portOpen = true ∧ 0 < sArrived.arrivals ∧ sArrived.params.extracts = .once := by
  decide +kernel

theorem witness_ArrivalUntilNoneDeliversTheStream :
    BetweenSteps { sArrived with params := { p0 with extracts := .untilNone } } ∧ sArrived.portOpen = true ∧
      0 < sArrived.arrivals ∧ { p0 with extracts := .untilNone }.extracts = .untilNone := by decide +kernel

theorem witness_ArrivalIsRefusedOrWaits :
    { sArrived with portOpen := false }.portOpen = false ∧ sArrived.portOpen = true ∧ s0.arrivals = 0 ∧
      { sArrived with rxLock := some (.arrival 1) }.rxLock ≠ none ∧
      { sArrived with portLock := some .poll }.portLock ≠ none := by decide +kernel

theorem witness_PendingArrivalIsServed :
    BetweenSteps sArrived ∧ sArrived.portOpen = true ∧ 0 < sArrived.arrivals ∧ faulted sArrived = false ∧
      { sArrived with agenda := [.rxArrive 0 {}] }.agenda = .rxArrive 0 {} :: [] := by decide +kernel

/-- V33. -/
theorem witness_ReadTimeoutKeepsTheBuffers :
    BetweenSteps sArrived ∧ sArrived.portOpen = true ∧ 0 < sArrived.arrivals ∧
      ({ readTimeout := true } : ArriveDraw).readTimeout = true := by decide +kernel

/-- V34. -/
theorem witness_DecodeErrorIsAbsorbed :
    BetweenSteps { sArrived with params := { p0 with decodeFault := true } } ∧ sArrived.portOpen = true ∧
      0 < sArrived.arrivals ∧ { p0 with decodeFault := true }.decodeFault = true ∧
      sArrived.params.decodeFault = false := by decide +kernel

/-- R138: the error comes before the first push, and after it. -/
theorem test_decode_error_keeps_pushed_frames :
    (ran (.rxArrive 0 { decodeFault := some ⟨0, 9⟩ }) { sArrived with params := { p0 with decodeFault := true } }).map
        (·.delivQ) = some [] ∧
      (ran (.rxArrive 0 { decodeFault := some ⟨1, 9⟩ }) { sArrived with params := { p0 with decodeFault := true } }).map
        (·.delivQ) = some [(Instr.ack 0x80 0x05).frame] := by decide +kernel

theorem witness_OpenPortOpensOrTimesOut : State.reset.host.poll = .idle ∧ State.reset.portOpen = false := by
  decide +kernel

/-! ### Witnesses: the bus -/

/-- The reserved addresses, their neighbours, a present address. -/
theorem witness_RegisterAppendsOrFaults :
    s0.host.poll = .idle ∧
      (∀ a ∈ [(0x7F : Byte), 0x81, 0xEF, 0xF1, 0x00, 0xFF], a ≠ 0x80 ∧ a ≠ 0xF0 ∧ mapGet s0.ctrlMap a = none) ∧
      mapGet s0.ctrlMap 0x05 ≠ none := by decide +kernel

theorem witness_UnregisterRemovesOneEntry :
    s0.host.poll = .idle ∧ mapGet s0.ctrlMap 0x05 ≠ none ∧ mapGet s0.ctrlMap 0x07 = none := by decide +kernel

theorem witness_BusOperationsNeedThePollAgent : Agent.flush ≠ .poll ∧ Agent.sender 0 ≠ .poll := by decide

theorem witness_PollEndsWithTheBroadcastGet :
    s0.portOpen = true ∧ s0.portLock = none ∧ s0.portOut = [] ∧ ({} : PollDraw).write = none ∧
      firstDirty s0.ctrlMap = none ∧ (setPoll .broadcast sDirty).host.poll = .broadcast := by decide +kernel

theorem witness_PollServicesTheFirstDirtyController :
    sDirty.portOpen = true ∧ sDirty.portLock = none ∧ sDirty.portOut = [] ∧ ({} : PollDraw).write = none ∧
      sDirty.host.poll = .idle ∧
      firstDirty sDirty.ctrlMap = some (0x05, { c5 with pendingAutoRestore := some 1000 }) ∧
      applyPending sDirty.params sDirty.host {} { c5 with pendingAutoRestore := some 1000 } = some c5 := by
  decide +kernel

theorem witness_BusySetEndsTheTick :
    sDirty.portOpen = true ∧ sDirty.portLock = none ∧ { sDirty with portOut := [0x6F] }.portOut ≠ [] ∧
      sDirty.host.poll = .idle ∧
      firstDirty sDirty.ctrlMap = some (0x05, { c5 with pendingAutoRestore := some 1000 }) ∧
      applyPending sDirty.params sDirty.host {} { c5 with pendingAutoRestore := some 1000 } = some c5 ∧
      sDirty.params.storeOnFault = false ∧ sDirty.params.restoreOnFault = false ∧
      sDirty.params.broadcastAfterFault = false ∧ (setPoll .broadcast sDirty).host.poll = .broadcast ∧
      firstDirty s0.ctrlMap = none ∧ { s0 with portOut := [0x6F] }.portOut ≠ [] := by decide +kernel

/-! ### Witnesses: the host -/

/-- V43 and the other clauses: each pending item alone. -/
theorem witness_PendingWorkClearsWhatItActsOn :
    applyPending p0 HostSide.reset {} { c5 with pendingAutoRestore := some 2000 } =
        some { c5 with requiredOhms := 2000 } ∧
      applyPending p0 HostSide.reset { resistor := [999, 1000, 5100] } { c5 with resistorBreak := true } =
        some { c5 with requiredOhms := 5100 } ∧
      applyPending p0 HostSide.reset {} { c5 with jumperBreak := some (some 0xFF) } =
        some { c5 with jumperTarget := 0xFF } ∧
      applyPending p0 HostSide.reset { jumper := [0x03, 0x07] } { c5 with jumperBreak := some none } =
        some { c5 with jumperTarget := 0x07 } ∧
      applyPending p0 (storeSet ⟨0x05, 0x2A, 0x1C⟩ HostSide.reset) {} { c5 with needsFreshTarget := true } =
        some { c5 with requiredOhms := 1962, jumperTarget := 0x1C } ∧
      applyPending p0 HostSide.reset {} { c5 with needsFreshTarget := true } = some c5 ∧
      applyPending { p0 with noopPersistence := true } HostSide.reset { target := [0x01, 0x1F] }
        { c5 with needsFreshTarget := true } = some { c5 with requiredOhms := 0, jumperTarget := 0x1F } ∧
      applyPending p0 HostSide.reset {} c5 = some c5 ∧ dirty c5 = false := by decide +kernel

theorem witness_GeneratorsAnswerAcceptedDraws :
    generateJumper [0xFF, 0x1F] = some 0x1F ∧ generateResistor 1000 [1000, 15000] = some 15000 := by decide +kernel

theorem witness_OhmConversionsAreMonotonic :
    1000 ≤ 2000 ∧ (0x17 : Byte).toNat ≤ (0x2A : Byte).toNat := by decide

/-- One tick on either side of 2 seconds, and a controller never acknowledged. -/
theorem witness_OnlineAndConsumption :
    c5.everConnected = false ∧ (onAck 5 c5).everConnected = true ∧ (onAck 5 c5).lastUpdated = some 5 ∧
      2000000004 - 5 < 2000000000 ∧ 2000000000 < 2000000006 - 5 ∧ c5.lastStatus = none ∧
      { c5 with lastStatus := some ⟨0, 0, 0, 0x60⟩ }.lastStatus = some ⟨0, 0, 0, 0x60⟩ := by decide +kernel

/-- With no flush in progress, and during one. -/
theorem witness_StoreSetIsVisibleAtOnce :
    s0.host.poll = .idle ∧ mapGet s0.host.store 0x05 = none ∧ s0.host.flush = none ∧
      (flushStep p0 true (storeSet target5 s0.host)).bind (·.flush) = some ⟨[0x05], []⟩ := by decide +kernel

/-- The flush worker idle and clean, idle and dirty, and with one and two addresses to save. -/
theorem witness_FlushKeepsUnsavedAddressesDirty :
    s0.host.flush = none ∧ s0.host.dirty = [] ∧ (storeSet target5 s0.host).flush = none ∧
      (storeSet target5 s0.host).dirty ≠ [] ∧ mapGet (storeSet target5 s0.host).store 0x05 = some target5 ∧
      (flushStep p0 true (storeSet target5 s0.host)).bind (·.flush) = some ⟨0x05 :: [], []⟩ ∧
      (flushStep p0 true (storeSet ⟨0x06, 0, 0⟩ (storeSet target5 s0.host))).bind (·.flush) =
        some ⟨0x05 :: [0x06], []⟩ ∧
      s0.params.noopPersistence = false := by decide +kernel

/-! ### Witnesses: the machine -/

theorem witness_StepRunsTheReceivedFrame :
    { sArrived with agenda := [.rxArrive 0 {}] }.agenda = .rxArrive 0 {} :: [] ∧ faulted sArrived = false ∧
      sArrived.portOpen = true ∧ 0 < sArrived.arrivals ∧ sArrived.rxLock = none ∧ sArrived.portLock = none ∧
      sArrived.params.extracts = .once ∧
      decode (resync (sArrived.rxBuf ++ sArrived.portIn)) = .ok (.ack 0x80 0x05, []) := by decide +kernel

theorem witness_StepRunsTheDispatchedOrSentFrame :
    (Instr.ack 0x80 0x05).wf = true ∧ { s0 with agenda := [.dispatch .poll] }.agenda = .dispatch .poll :: [] ∧
      faulted s0 = false ∧ s0.host.poll = .idle ∧
      { s0 with delivQ := [(Instr.ack 0x80 0x05).frame] }.delivQ = (Instr.ack 0x80 0x05).frame :: [] ∧
      { s0 with agenda := [.send .poll (Instr.get 0x05 0x80).frame none] }.agenda =
        .send .poll (Instr.get 0x05 0x80).frame none :: [] ∧ s0.portLock = none := by decide +kernel

theorem witness_StepKeepsTheInvariant :
    Inv s0 ∧ (nextOf (step { s0 with agenda := [.register .poll 0x07] })).isSome = true :=
  ⟨s0_inv, by decide +kernel⟩

theorem witness_PortOutHoldsAtMostOneFrame :
    OneFrameOut s0 ∧
      (nextOf (step { s0 with agenda := [.send .poll (Instr.get 0x05 0x80).frame none] })).isSome = true :=
  ⟨.inl rfl, by decide +kernel⟩

theorem witness_FaultAndLogOnlyGrow :
    .reset ∉ { s0 with agenda := [.register .poll 0x05] }.agenda ∧
      (nextOf (step { s0 with agenda := [.register .poll 0x05] })).map (·.faults) =
        some [.duplicateAddress 0x05] := by decide +kernel

theorem witness_TimeoutStopsTheMachineUntilReset :
    faulted { s0 with faults := [.ioTimeout .atRead] } = true ∧ .reset ∉ s0.agenda ∧
      .reset ∈ { s0 with agenda := [.tick 1, .reset] }.agenda := by decide +kernel

/-- A host that has written and not flushed, a collaborator with one row, in a running and in a faulted state. -/
def sOld : State := { s0 with host := { storeSet ⟨0x06, 0, 0⟩ HostSide.reset with saved := [(0x05, target5)] } }

theorem witness_BootRegistersEveryUnit :
    HostOk sOld.host ∧ faulted sOld = false ∧ sOld.host.poll = .idle ∧ mapGet sOld.host.saved 0x05 = some target5 ∧
      sOld.params.noopPersistence = false ∧ faulted { sOld with faults := [.ioTimeout .atWrite] } = true := by
  refine ⟨⟨by decide +kernel, by decide +kernel, by decide +kernel, by decide +kernel, ?_⟩, by decide +kernel⟩
  simp [sOld, storeSet, HostSide.reset]

theorem witness_PlacedWordIsRunNext :
    s0.params.extracts = .once ∧ decodeTableWord 8 0xFF = some (.unknown 0xFF 0 0) ∧
      decodeTableWord 72 0x008E9B8004F268030580 = some (.set 0x80 0x05 0x68 0xF2 0x04 0x80) := by decide +kernel

end Tests
end Sys2Proof
end

section
/-! The invariant of the machine is kept by every step: one rule for each part of the state the invariant speaks of,
one lemma for each operation, then the case split of `runAction` and of `step`. -/

namespace Sys2Proof
namespace Machine

/-! ### One rule for each part of the state -/

/-- The invariant does not speak of the byte buffers, the notifications, `PORT_OPEN`, the parameters, the agenda or
what the last operation returned. -/
theorem Inv.congr {s t : State} (h : Inv s)
    (ht : t = { s with
      rxBuf := t.rxBuf, portIn := t.portIn, portOut := t.portOut, arrivals := t.arrivals, portOpen := t.portOpen
      params := t.params, agenda := t.agenda, ret := t.ret, wireOut := t.wireOut }) : Inv t := by
  rw [ht]
  exact ⟨h.between, h.ctrlMap, h.records, h.faults, h.host⟩

theorem Inv.setCtrlMap {s : State} (h : Inv s) {m : List (Byte × Controller)} (hm : CtrlMapOk m) :
    Inv { s with ctrlMap := m } :=
  ⟨h.between, hm, h.records, h.faults, h.host⟩

theorem Inv.setHost {s : State} (h : Inv s) {x : HostSide} (hx : HostOk x) : Inv { s with host := x } :=
  ⟨h.between, h.ctrlMap, h.records, h.faults, hx⟩

theorem Inv.setFr {s : State} (h : Inv s) {r : Option Frame} (hr : ∀ f ∈ r, f.wf) : Inv { s with fr := r } :=
  ⟨h.between, h.ctrlMap, ⟨hr, h.records.2⟩, h.faults, h.host⟩

theorem Inv.setDelivQ {s : State} (h : Inv s) {q : List Frame} (hq : ∀ f ∈ q, f.wf) :
    Inv { s with delivQ := q } := by
  obtain ⟨hfr, -, hfaults, hlog⟩ := h.records
  exact ⟨h.between, h.ctrlMap, ⟨hfr, hq, hfaults, hlog⟩, h.faults, h.host⟩

/-- A record that joins `FAULT` leaves it without repeats (R24). -/
theorem Inv.addFault {s : State} (h : Inv s) {r : FaultRecord} (hr : r.wf) :
    Inv { s with faults := insertFault r s.faults } := by
  obtain ⟨hfr, hq, hfaults, hlog⟩ := h.records
  refine ⟨h.between, h.ctrlMap, ⟨hfr, hq, fun r' hr' => ?_, hlog⟩, nodup_insertFault h.faults r, h.host⟩
  rcases (mem_insertFault r r' s.faults).1 hr' with rfl | hr'
  · exact hr
  · exact hfaults r' hr'

theorem Inv.addEvent {s : State} (h : Inv s) {e : Event} (he : e.wf) : Inv { s with log := s.log ++ [e] } := by
  obtain ⟨hfr, hq, hfaults, hlog⟩ := h.records
  refine ⟨h.between, h.ctrlMap, ⟨hfr, hq, hfaults, fun e' he' => ?_⟩, h.faults, h.host⟩
  rcases List.mem_append.1 he' with he' | he'
  · exact hlog e' he'
  · exact List.mem_singleton.1 he' ▸ he

theorem Inv.raise {s : State} (h : Inv s) {r : FaultRecord} (hr : r.wf) : Inv (raise r s) :=
  (h.addFault hr).congr rfl

theorem Inv.append_delivQ_wf {s : State} (h : Inv s) {q : List Frame} (hq : ∀ f ∈ q, f.wf) :
    ∀ f ∈ s.delivQ ++ q, f.wf := by
  obtain ⟨-, hold, -, -⟩ := h.records
  exact fun f hf => (List.mem_append.1 hf).elim (hold f) (hq f)

/-! ### The three places of a frame -/

theorem routeFrame_keeps_inv {i : Instr} (hi : i.wf) {s : State} (h : Inv { s with stage := .receive }) :
    Inv (routeFrame i.frame (handlerOf i s) s) := by
  rcases routeFrame_cases i.frame (handlerOf i s) s with ⟨-, e⟩ | ⟨-, -, e⟩ | ⟨-, -, e⟩ <;> rw [e]
  · exact h.congr rfl
  · exact (h.addEvent (e := .unrouted i.frame) (frame_wf i hi)).congr rfl
  · have hm := ctrlMapOk_mapModify h.ctrlMap i.frame.sender (handlerOf i s)
      fun c hc => (handlerOf_address i s c).trans hc
    exact (h.setCtrlMap hm).congr rfl

/-- With `PORTLOCK` free a send is busy, timed out or written whole, and no frame is in `exec`'s hands after it. -/
theorem sendResult_keeps_inv {i : Instr} (hi : i.wf) {timeout : Option Nat} {s t : State}
    (h : Inv { s with stage := .receive }) (ht : SendResult i timeout s t) : Inv t := by
  have hfree : s.portLock = none := h.between.2.1
  rcases ht with ⟨hheld, -⟩ | ⟨-, -, rfl⟩ | ⟨-, -, k, -, rfl⟩ | ⟨-, -, -, rfl⟩
  · exact absurd hfree hheld
  · exact (h.addFault (r := .writeWhileBusy i.frame) (frame_wf i hi)).congr rfl
  · exact (h.addFault (r := .ioTimeout .atWrite) rfl).congr rfl
  · exact h.congr rfl

/-- `exec` keeps the invariant, from a state that has it but for the frame in `exec`'s hands. -/
theorem exec_keeps_inv {i : Instr} {s t : State} (h : Inv { s with stage := .receive }) (he : exec i s = .next t) :
    Inv t := by
  obtain ⟨hi, hcases⟩ := exec_next he
  rcases hcases with ⟨-, -, rfl⟩ | ⟨-, rfl⟩ | ⟨caller, timeout, -, -, -, ht⟩
  · have hf : ∀ f ∈ [i.frame], f.wf := by simpa using frame_wf i hi
    have hfr : ∀ f ∈ some i.frame, f.wf := by simpa using frame_wf i hi
    exact ((h.setFr hfr).setDelivQ (h.append_delivQ_wf hf)).congr rfl
  · exact routeFrame_keeps_inv hi h
  · exact sendResult_keeps_inv hi h ht

/-! ### The Transport's operations -/

theorem lineDrain_keeps_inv {k : Nat} {s t : State} (h : Inv s) (ht : lineDrain k s = some t) : Inv t := by
  unfold lineDrain at ht
  split at ht
  · obtain rfl := Option.some.inj ht
    exact h.congr rfl
  · cases ht

/-- An arrival frees both arbiters, and pushes and logs well-formed records alone (R51, R132). -/
theorem rxArrive_keeps_inv {id : Nat} {draw : ArriveDraw} {s t : State} (h : Inv s)
    (ht : rxArrive id draw s = some (.next t)) : Inv t := by
  obtain ⟨hrx, hport, -, -, hserve⟩ := rxArrive_next ht
  obtain ⟨u, hu, hform, hstage, hfr, ⟨q, hq, hqwf⟩, hlog, hfaults⟩ :=
    serveArrival_next (.arrival id) draw
      (s := { s with
        arrivals := s.arrivals - 1, rxLock := some (.arrival id), portLock := some (.arrival id) }) rfl rfl
  obtain rfl : t = u := Host.Outcome.next.inj (hserve.symm.trans hu)
  have hst : t.stage = .receive := hstage.elim (fun e => e.trans h.between.2.2) fun e => e
  have hfrwf : ∀ f ∈ t.fr, f.wf := hfr.elim (fun e => e ▸ h.records.1) fun hf => hf
  have hframes := (h.setFr hfrwf).setDelivQ (h.append_delivQ_wf hqwf)
  have hlogged : Inv { s with fr := t.fr, delivQ := s.delivQ ++ q, log := t.log } := by
    rcases hlog with e | ⟨info, e⟩ <;> rw [e]
    · exact hframes
    · exact hframes.addEvent (e := .decodeError info) rfl
  have hall : Inv { s with fr := t.fr, delivQ := s.delivQ ++ q, log := t.log, faults := t.faults } := by
    rcases hfaults with e | e <;> rw [e]
    · exact hlogged
    · exact hlogged.addFault (r := .ioTimeout .atRead) rfl
  refine hall.congr ?_
  rw [hform, hst, hq, hrx, hport, h.between.2.2]

/-- Where `SEND` answers a next state. -/
theorem sendOp_next {caller : Agent} {f : Frame} {timeout : Option Nat} {s t : State}
    (h : sendOp caller f timeout s = some (.next t)) :
    ∃ i, f.instr? = some i ∧ s.portLock = none ∧ exec i { s with stage := .send caller timeout } = .next t := by
  unfold sendOp at h
  split at h
  · cases h
  · rename_i i hi
    split at h
    · cases h
    · rename_i hp
      exact ⟨i, hi, by simpa using hp, Option.some.inj h⟩

theorem sendOp_keeps_inv {caller : Agent} {f : Frame} {timeout : Option Nat} {s t : State} (h : Inv s)
    (ht : sendOp caller f timeout s = some (.next t)) : Inv t := by
  obtain ⟨i, -, -, he⟩ := sendOp_next ht
  refine exec_keeps_inv ?_ he
  rw [← h.between.2.2]
  exact h

theorem openPort_keeps_inv (timeout : Bool) {s : State} (h : Inv s) : Inv (openPort timeout s) := by
  cases timeout
  · exact h.congr rfl
  · exact h.raise (r := .ioTimeout .atOpen) rfl

/-- A reset gives every register its form; the host keeps its own. -/
theorem resetBlock_keeps_inv {s : State} (h : Inv s) : Inv (resetBlock s) where
  between := ⟨rfl, rfl, rfl⟩
  ctrlMap := ⟨List.nodup_nil, List.forall_mem_nil _⟩
  records := ⟨by simp [State.reset], List.forall_mem_nil _, List.forall_mem_nil _, List.forall_mem_nil _⟩
  faults := List.nodup_nil
  host := h.host

/-! ### The bus operations -/

/-- Where `DISPATCH` answers a next state. -/
theorem dispatch_next {caller : Agent} {s t : State} (h : dispatch caller s = some (.next t)) :
    ∃ f q i, s.delivQ = f :: q ∧ f.instr? = some i ∧
      exec i { s with delivQ := q, stage := .dispatch } = .next t := by
  obtain ⟨-, -, h⟩ := onPollAgent_next h
  split at h
  · cases h
  · rename_i f q hq
    split at h
    · cases h
    · rename_i i hi
      exact ⟨f, q, i, hq, hi, Option.some.inj h⟩

theorem dispatch_keeps_inv {caller : Agent} {s t : State} (h : Inv s) (ht : dispatch caller s = some (.next t)) :
    Inv t := by
  obtain ⟨f, q, i, hq, -, he⟩ := dispatch_next ht
  obtain ⟨-, hwf, -, -⟩ := h.records
  have hpop : Inv { s with delivQ := q } := h.setDelivQ fun g hg => hwf g (hq ▸ List.mem_cons_of_mem f hg)
  refine exec_keeps_inv ?_ he
  rw [← h.between.2.2]
  exact hpop

/-- Where `REGISTER` answers a next state: a duplicate, or a new controller behind the others (R167, R218). -/
theorem registerUnit_next {caller : Agent} {a : Byte} {s t : State}
    (h : registerUnit caller a s = some (.next t)) :
    isReserved a = false ∧
      (t = raise (.duplicateAddress a) s ∨
        mapGet s.ctrlMap a = none ∧
          t = returnOk { s with ctrlMap := s.ctrlMap ++ [(a, freshController s.params a)] }) := by
  obtain ⟨-, -, h⟩ := onPollAgent_next h
  split at h
  · cases h
  · rename_i hres
    refine ⟨by simpa using hres, ?_⟩
    split at h
    · exact .inl (Host.Outcome.next.inj (Option.some.inj h)).symm
    · exact .inr ⟨‹_›, (Host.Outcome.next.inj (Option.some.inj h)).symm⟩

theorem registerUnit_keeps_inv {caller : Agent} {a : Byte} {s t : State} (h : Inv s)
    (ht : registerUnit caller a s = some (.next t)) : Inv t := by
  obtain ⟨hres, rfl | ⟨hnew, rfl⟩⟩ := registerUnit_next ht
  · exact h.raise rfl
  · exact (h.setCtrlMap (ctrlMapOk_append h.ctrlMap hnew hres rfl)).congr rfl

/-- An operation of the poll/dispatch agent that is a plain update keeps the invariant where the update does. -/
theorem onPollAgent_keeps_inv {caller : Agent} {s t u : State} (hu : Inv u)
    (ht : onPollAgent caller s (some (.next u)) = some (.next t)) : Inv t := by
  obtain ⟨-, -, ht⟩ := onPollAgent_next ht
  obtain rfl := Host.Outcome.next.inj (Option.some.inj ht)
  exact hu

/-! ### The poll cycle -/

/-- What follows a sent Set stores a target, and may put pending items back: neither changes a key or an address. -/
theorem afterSet_keeps_inv {a : Byte} (old : Controller) {c : Controller} (hc : c.address = a) {s : State}
    (h : Inv s) : Inv (afterSet a old c s) := by
  obtain ⟨e, hctrl, p, hhost⟩ := afterSet_eq a old c s
  have hm : CtrlMapOk (afterSet a old c s).ctrlMap := by
    rcases hctrl with e | e <;> rw [e]
    · exact h.ctrlMap
    · exact ctrlMapOk_mapModify h.ctrlMap a _ fun _ _ => hc
  have hx : HostOk (afterSet a old c s).host := by
    rcases hhost with e | e <;> rw [e]
    · exact h.host
    · exact hostOk_storeSet h.host (targetOf s.params c)
  have hboth := (h.setCtrlMap hm).setHost hx
  rw [e]
  exact hboth

theorem firstDirty_mem {m : List (Byte × Controller)} {e : Byte × Controller} (h : firstDirty m = some e) : e ∈ m :=
  List.mem_of_find?_eq_some h

theorem pollStep_keeps_inv {caller : Agent} {draw : PollDraw} {s t : State} (h : Inv s)
    (ht : pollStep caller draw s = some (.next t)) : Inv t := by
  obtain ⟨-, -, hb | ⟨a, c, c', u, -, hd, hp, hu, rfl⟩⟩ := pollStep_next ht
  · refine exec_keeps_inv ?_ hb
    exact (h.setHost (x := { s.host with poll := .idle }) h.host).congr (by rw [← h.between.2.2]; rfl)
  · have hc' : c'.address = a := (applyPending_address hp).trans (h.ctrlMap.2 _ (firstDirty_mem hd)).2
    have hmade := h.setCtrlMap (ctrlMapOk_mapModify h.ctrlMap a (fun _ => c') fun _ _ => hc')
    refine afterSet_keeps_inv c hc' (exec_keeps_inv ?_ hu)
    rw [← h.between.2.2]
    exact hmade

/-! ### One operation, one step -/

theorem runAction_keeps_inv {a : Action} {s t : State} (h : Inv s) (ht : runAction a s = some (.next t)) : Inv t := by
  cases a with
  | lineDeliver first others =>
    obtain rfl := Host.Outcome.next.inj (Option.some.inj ht)
    exact h.congr rfl
  | lineDrain k =>
    obtain ⟨u, hu, e⟩ := Option.map_eq_some_iff.1 ht
    exact Host.Outcome.next.inj e ▸ lineDrain_keeps_inv h hu
  | rxArrive id draw => exact rxArrive_keeps_inv h ht
  | send caller f timeout =>
    simp only [runAction] at ht
    split at ht
    · cases ht
    · exact sendOp_keeps_inv h ht
  | dispatch caller => exact dispatch_keeps_inv h ht
  | register caller a => exact registerUnit_keeps_inv h ht
  | unregister caller a =>
    exact onPollAgent_keeps_inv ((h.setCtrlMap (ctrlMapOk_mapErase h.ctrlMap a)).congr rfl) ht
  | openPort timeout => exact onPollAgent_keeps_inv (openPort_keeps_inv timeout h) ht
  | reset =>
    obtain rfl := Host.Outcome.next.inj (Option.some.inj ht)
    exact resetBlock_keeps_inv h
  | poll caller draw => exact pollStep_keeps_inv h ht
  | request a r =>
    have hm := ctrlMapOk_mapModify h.ctrlMap a (applyRequest r) fun c hc => (applyRequest_address r c).trans hc
    exact onPollAgent_keeps_inv (caller := .poll) (s := s) (h.setCtrlMap hm) ht
  | storeSet target => exact onPollAgent_keeps_inv (h.setHost (hostOk_storeSet h.host target)) ht
  | loadAll => exact onPollAgent_keeps_inv (h.setHost (hostOk_loadAll h.host s.params)) ht
  | flush ok =>
    obtain ⟨x, hx, e⟩ := Option.map_eq_some_iff.1 ht
    exact Host.Outcome.next.inj e ▸ h.setHost (hostOk_flushStep h.host hx)
  | tick d =>
    obtain rfl := Host.Outcome.next.inj (Option.some.inj ht)
    exact h.setHost h.host

/-- Where an operation has a step, a faulted block or not, it is the operation's own. -/
theorem runAction_of_attempt {a : Action} {s : State} {o : Out} (h : attempt a s = some o) :
    runAction a s = some o := by
  unfold attempt at h
  split at h
  · cases h
  · exact h

theorem idleStep_next {s t : State} (h : idleStep s = .next t) : t = s := by
  unfold idleStep at h
  split at h
  · cases h
  · exact (Host.Outcome.next.inj h).symm

/-- Settles O53: a step is one operation of the agenda, each of which keeps the invariant, or idling. -/
theorem stepKeepsTheInvariant : Obligations.StepKeepsTheInvariant := by
  intro s t h ht
  rcases step_cases s with ⟨a, -, g, hg, -⟩ | hidle
  · have hagenda : Inv { s with agenda := g } := h.congr rfl
    exact runAction_keeps_inv hagenda (by rw [runAction_of_attempt hg, ht])
  · rw [idleStep_next (hidle.symm.trans ht)]
    exact h

end Machine
end Sys2Proof
end

section
/-! The frame of `exec` at each of its three places, and the step that serves an arrival: what one `RX_ARRIVE` with a
frame at the head of the resynchronised stream leaves behind, said once as a next state. -/

namespace Sys2Proof
namespace Machine

/-! ### What a frame leaves unchanged on dispatch and on send -/

/-- A routed frame reaches the controller of its sender and no other, or the log alone (R166, R169). -/
theorem routeFrame_frame (f : Frame) (handler : Controller → Controller) {s t : State}
    (ht : t = routeFrame f handler s) :
    t = { s with stage := .receive, ret := some .ok, ctrlMap := t.ctrlMap, log := t.log } ∧
      t.ctrlMap.map Prod.fst = s.ctrlMap.map Prod.fst ∧
      (∀ a, a ≠ f.sender → mapGet t.ctrlMap a = mapGet s.ctrlMap a) ∧
      (t.log = s.log ∨ t.log = s.log ++ [.unrouted f] ∧ t.ctrlMap = s.ctrlMap) := by
  rcases routeFrame_cases f handler s with ⟨-, e⟩ | ⟨-, -, e⟩ | ⟨-, -, e⟩ <;> obtain rfl := ht.trans e
  case inl => exact ⟨rfl, rfl, fun _ _ => rfl, .inl rfl⟩
  case inr.inl => exact ⟨rfl, rfl, fun _ _ => rfl, .inr ⟨rfl, rfl⟩⟩
  case inr.inr =>
    refine ⟨rfl, mapModify_keys .., fun a ha => ?_, .inl rfl⟩
    exact (mapGet_mapModify ..).trans (if_neg ha)

/-- A send writes into an empty `PORT_OUT` alone, a first part of its own encoding, and `FAULT` loses no record
(R134, R211, R212). -/
theorem SendResult.frame {i : Instr} {timeout : Option Nat} {s t : State} (h : SendResult i timeout s t) :
    t = { s with stage := t.stage, ret := t.ret, portOut := t.portOut, faults := t.faults } ∧
      (t.portOut = s.portOut ∨ s.portOut = [] ∧ t.portOut <+: encode i) ∧ ∀ r ∈ s.faults, r ∈ t.faults := by
  have grows (r : FaultRecord) : ∀ r' ∈ s.faults, r' ∈ insertFault r s.faults :=
    fun r' hr' => (mem_insertFault r r' s.faults).2 (.inr hr')
  rcases h with ⟨-, rfl⟩ | ⟨-, -, rfl⟩ | ⟨-, hempty, k, -, rfl⟩ | ⟨-, hempty, -, rfl⟩
  · exact ⟨rfl, .inl rfl, fun _ hr => hr⟩
  · exact ⟨rfl, .inl rfl, grows _⟩
  · exact ⟨rfl, .inr ⟨hempty, List.take_prefix k (encode i)⟩, grows _⟩
  · exact ⟨rfl, .inr ⟨hempty, List.prefix_refl _⟩, fun _ hr => hr⟩

/-- Settles O27: `exec` answers a next state at one of the three places, each with its own frame. -/
theorem frameOfEveryCommandFrame : Obligations.FrameOfEveryCommandFrame := by
  intro i s t he
  obtain ⟨-, ⟨hs, -, ht⟩ | ⟨hs, ht⟩ | ⟨caller, timeout, hs, -, -, ht⟩⟩ := exec_next he <;> rw [hs]
  · exact ht
  · exact routeFrame_frame i.frame (handlerOf i s) ht
  · exact ht.frame

/-! ### An arrival with a frame to deliver -/

/-- A well-formed frame on receive, with its bytes in `RXBUF` (R113 step 6, R142). -/
theorem exec_on_receive {i : Instr} {s : State} (hi : i.wf) (hs : s.stage = .receive)
    (hl : i.wireLen ≤ s.rxBuf.length) :
    exec i s = .next { s with
      rxBuf := s.rxBuf.drop i.wireLen, fr := some i.frame, delivQ := s.delivQ ++ [i.frame] } := by
  rw [exec_of_wf hi, runFrame, hs]
  simp [receiveFrame, dropFront, hl]

/-- With `RXLOCK` and `PORTLOCK` held and no draw against it, an arrival frees the port, appends, extracts, and then
frees `RXLOCK` and returns (R51, R132). -/
theorem serveArrival_of_extract {a : Agent} {s u t : State} (hr : s.rxLock = some a) (hp : s.portLock = some a)
    (hu : u = { s with portLock := none, portIn := [], rxBuf := s.rxBuf ++ s.portIn })
    (ht : extractTimes (extractions u) u = .next t) :
    serveArrival a {} s = .next { t with rxLock := none, ret := some .ok } := by
  have hheld : t.rxLock = some a := by
    obtain ⟨hframe, -⟩ := extractTimes_frame ht
    rw [hframe, hu]
    exact hr
  have hfreed : release .rx a t = { t with rxLock := none } := by simp [release, holder, setHolder, hheld]
  have happend : appendExtract s.portIn none (release .port a { s with portIn := [] }) = .next t := by
    simpa [appendExtract, release, holder, setHolder, hp, append, ← hu] using ht
  simp [serveArrival, rawRead, happend, hfreed, returnOk]

/-- One `RX_ARRIVE` that finds the frame `i` behind the noise of its stream, in full (R57, R132). -/
theorem rxArrive_of_decode {s : State} {id : Nat} {i : Instr} {tail : List Byte} (hopen : s.portOpen = true)
    (hpending : 0 < s.arrivals) (hrx : s.rxLock = none) (hport : s.portLock = none)
    (honce : s.params.extracts = .once) (hdecode : decode (resync (s.rxBuf ++ s.portIn)) = .ok (i, tail)) :
    rxArrive id {} s = some (.next { s with
      arrivals := s.arrivals - 1
      portIn := []
      rxBuf := tail
      fr := some i.frame
      delivQ := s.delivQ ++ [i.frame]
      stage := .receive
      ret := some .ok }) := by
  have hextract : extract (s.rxBuf ++ s.portIn) = (some i, tail) := by simp [extract, hdecode]
  rw [rxArrive_eq hrx hport hopen hpending]
  refine congrArg some ((serveArrival_of_extract rfl rfl rfl
    (t := { s with
      arrivals := s.arrivals - 1, portIn := [], rxBuf := tail, fr := some i.frame
      delivQ := s.delivQ ++ [i.frame], stage := .receive, rxLock := some (.arrival id) }) ?_).trans ?_)
  · simp only [extractions, honce]
    rw [extractTimes_succ, hextract, hport]
    rfl
  · rw [hrx]

/-- The step that serves an arrival first on the agenda, with a frame to deliver. -/
theorem step_of_arrival {s : State} {id : Nat} {rest : List Action} {i : Instr} {tail : List Byte}
    (hagenda : s.agenda = .rxArrive id {} :: rest) (hfault : faulted s = false) (hopen : s.portOpen = true)
    (hpending : 0 < s.arrivals) (hrx : s.rxLock = none) (hport : s.portLock = none)
    (honce : s.params.extracts = .once) (hdecode : decode (resync (s.rxBuf ++ s.portIn)) = .ok (i, tail)) :
    step s = .next { s with
      agenda := rest
      arrivals := s.arrivals - 1
      portIn := []
      rxBuf := tail
      fr := some i.frame
      delivQ := s.delivQ ++ [i.frame]
      stage := .receive
      ret := some .ok } := by
  have hattempt : attempt (.rxArrive id {}) { s with agenda := rest } = rxArrive id {} { s with agenda := rest } :=
    if_neg (by simp [show faulted { s with agenda := rest } = false from hfault])
  exact step_of_head hagenda
    (hattempt.trans (rxArrive_of_decode (s := { s with agenda := rest }) hopen hpending hrx hport honce hdecode))

/-- Settles O51: the step in full, where `exec` on receive is written out. -/
theorem stepRunsTheReceivedFrame : Obligations.StepRunsTheReceivedFrame := by
  intro s id rest i tail hagenda hfault hopen hpending hrx hport honce hdecode
  obtain ⟨htail, hlen⟩ := decode_ok_rest hdecode
  rw [step_of_arrival hagenda hfault hopen hpending hrx hport honce hdecode,
    exec_on_receive (decode_ok_wf hdecode) rfl hlen, htail, ← hrx]

/-! ### A placed opcode-table word -/

theorem decode_of_decodeTableWord {nbits w : Nat} {i : Instr} (h : decodeTableWord nbits w = some i) :
    ∃ tail, decode (tableBytes nbits w) = .ok (i, tail) := by
  unfold decodeTableWord at h
  split at h
  · rename_i j tail hj
    exact ⟨tail, Option.some.inj h ▸ hj⟩
  · cases h

/-- No timeout is outstanding where a word is placed (log 23). -/
theorem faulted_withFetchWord (s : State) (nbits w : Nat) : faulted (s.withFetchWord nbits w) = false := by
  simp [faulted, State.withFetchWord, fetchWordState]

/-- Settles O58: a placed word makes the next step an arrival whose stream begins with the word's frame. -/
theorem placedWordIsRunNext : Obligations.PlacedWordIsRunNext := by
  intro s nbits w i honce hword
  obtain ⟨tail, htable⟩ := decode_of_decodeTableWord hword
  have hdecode : decode (resync (tableBytes nbits w ++ [])) = .ok (i, tail) := by
    rw [List.append_nil, resync_of_no_mismatch (by simp [htable]), htable]
  have hstep := step_of_arrival (s := s.withFetchWord nbits w) rfl (faulted_withFetchWord s nbits w) rfl
    (Nat.succ_pos _) rfl rfl honce hdecode
  exact ⟨_, hstep, rfl, rfl, rfl, rfl, rfl, rfl, rfl⟩

end Machine
end Sys2Proof
end

section
/-! The codec is a bijection (spec/30_encoding.md R82): the header and payload of a well-formed instruction are the
byte lists of the length that their code byte gives, and the trailer is a function of them that the decoder inverts.
What the decoder takes is then the encoding of what it answers, and it answers what was encoded. -/

namespace Sys2Proof

/-! ### The bytes of the CRC word (R41) -/

theorem toNat_lo8 (w : Word) : (lo8 w).toNat = w.toNat % 256 := by
  simp [lo8]

theorem toNat_hi8 (w : Word) : (hi8 w).toNat = w.toNat / 256 := by
  have := w.isLt
  simp only [hi8, BitVec.extractLsb'_toNat, Nat.shiftRight_eq_div_pow]
  omega

/-- The trailer whose word is the CRC of a body is the body's trailer (R41, R111). -/
theorem trailer_of_crc {w : List Byte} {t0 t1 : Byte} (h : crc16 w = trailerWord t0 t1) : trailer w = [t0, t1] := by
  rw [trailer, h, lo8_trailerWord, hi8_trailerWord]

/-! ### Header and payload (R71, R72, R112) -/

theorem three_le_flen (c : Byte) : 3 ≤ flen c := by
  rcases flen_cases c with h | h <;> omega

/-- `FIELDS` loses nothing of a body of the length that its code byte gives. -/
theorem fields_body {w : List Byte} (h : w.length = flen (byteAt w 2)) : (fields w).body = w := by
  by_cases hset : byteAt w 2 = Config.codeSet
  · rw [hset, flen_set] at h
    match w, h, hset with
    | [d, n, c, a, g, f, t], _, hset =>
      have hc : c = Config.codeSet := hset
      simp [fields, Frame.body, byteAt, hc]
  · rw [flen_of_ne hset] at h
    match w, h, hset with
    | [d, n, c], _, hset =>
      have hc : c ≠ Config.codeSet := hset
      simp [fields, Frame.body, byteAt, hc]

/-- The instruction of a body has that body, so it encodes to the body and its trailer. -/
theorem encode_instrOf {w : List Byte} (h : w.length = flen (byteAt w 2)) : encode (instrOf w) = w ++ trailer w := by
  rw [encode, instrOf_frame, fields_body h]

/-- The body of a well-formed instruction determines it: no other row selects the code of an Unknown (D2). -/
theorem instrOf_body {i : Instr} (h : i.wf) : instrOf i.frame.body = i := by
  cases i with
  | unknown code dest sender =>
    have hk : kindOf code = .unknown := (kindOf_unknown_iff code).2 h
    simp [instrOf, Instr.frame, Frame.header, Frame.body, byteAt, hk]
  | _ => rfl

/-! ### The decoder on an encoding, the encoder on what was decoded -/

/-- A body of the right length with its trailer is accepted, whatever stands behind it (R113 step 6). -/
theorem decode_body_trailer {w : List Byte} (h : w.length = flen (byteAt w 2)) (t : List Byte) :
    decode (w ++ trailer w ++ t) = .ok (instrOf w, t) := by
  have hlen := three_le_flen (byteAt w 2)
  have hcode : byteAt (w ++ trailer w ++ t) 2 = byteAt w 2 := by
    simp [byteAt, List.getElem?_append_left (show 2 < w.length by omega)]
  have htake : (w ++ trailer w ++ t).take w.length = w := by simp
  have hdrop : (w ++ trailer w ++ t).drop (w.length + 2) = t := by simp [trailer]
  have hlo : byteAt (w ++ trailer w ++ t) w.length = lo8 (crc16 w) := by simp [byteAt, trailer]
  have hhi : byteAt (w ++ trailer w ++ t) (w.length + 1) = hi8 (crc16 w) := by simp [byteAt, trailer]
  have hshort : ¬ (w ++ trailer w ++ t).length < 3 := by simp; omega
  have hcomplete : ¬ (w ++ trailer w ++ t).length < w.length + 2 := by simp [trailer]
  simp only [decode, hcode, ← h, htake, hdrop, hlo, hhi, trailerWord_lo8_hi8, hshort, hcomplete, if_false, ne_eq,
    not_true_eq_false]

/-- Decoding inverts encoding, and the bytes behind the frame are left (R82, R118). -/
theorem decode_encode_append {i : Instr} (h : i.wf) (t : List Byte) : decode (encode i ++ t) = .ok (i, t) := by
  rw [encode, decode_body_trailer (body_length i h), instrOf_body h]

theorem decode_encode {i : Instr} (h : i.wf) : decode (encode i) = .ok (i, []) := by
  simpa using decode_encode_append h []

theorem decode_of_encode_eq {i : Instr} {b : List Byte} (h : i.wf) (hb : encode i = b) : decode b = .ok (i, []) :=
  hb ▸ decode_encode h

theorem encode_injective {i j : Instr} (hi : i.wf) (hj : j.wf) (h : encode i = encode j) : i = j := by
  have hok := (decode_encode hi).symm.trans (h ▸ decode_encode hj)
  simp only [Except.ok.injEq, Prod.mk.injEq] at hok
  exact hok.1

theorem drop_eq_two_bytes {b : List Byte} {n : Nat} (h : n + 2 ≤ b.length) :
    b.drop n = byteAt b n :: byteAt b (n + 1) :: b.drop (n + 2) := by
  rw [List.drop_eq_getElem_cons (by omega), List.drop_eq_getElem_cons (by omega)]
  simp [byteAt, show n < b.length by omega, show n + 1 < b.length by omega]

/-- The bytes the decoder took are the encoding of what it answered (R82). -/
theorem eq_encode_append_of_decode_ok {b rest : List Byte} {i : Instr} (h : decode b = .ok (i, rest)) :
    b = encode i ++ rest := by
  obtain ⟨hlen, hcrc, rfl, rfl⟩ := decode_ok h
  have htwo : 2 < flen (byteAt b 2) := three_le_flen _
  generalize hn : flen (byteAt b 2) = n at hlen hcrc htwo ⊢
  have hbody : (b.take n).length = flen (byteAt (b.take n) 2) := by
    rw [byteAt_take htwo, hn, List.length_take]
    omega
  calc b = b.take n ++ b.drop n := (List.take_append_drop n b).symm
    _ = b.take n ++ ([byteAt b n, byteAt b (n + 1)] ++ b.drop (n + 2)) := by rw [drop_eq_two_bytes hlen]; rfl
    _ = encode (instrOf (b.take n)) ++ b.drop (n + 2) := by
      rw [encode_instrOf hbody, trailer_of_crc hcrc, List.append_assoc]

/-! ### The statements -/

/-- Settles O2: each direction of the correspondence, and injectivity by decoding both sides. -/
theorem acceptedBytesAreEncodings : Obligations.AcceptedBytesAreEncodings := by
  refine ⟨fun b i rest h => ?_, fun i hi => ?_, fun i j => encode_injective⟩
  · exact ⟨decode_ok_wf h, eq_encode_append_of_decode_ok h⟩
  · exact ⟨encode_length i hi, wireLen_cases i, decode_encode hi⟩

/-- Settles O4: the tables of R74 and R110 by definition, the lengths by the kind of frame. -/
theorem lengthAndKindOfEveryCode : Obligations.LengthAndKindOfEveryCode :=
  ⟨fun _ => ⟨rfl, rfl⟩, fun i hi => ⟨rfl, body_length i hi, encode_length i hi⟩⟩

/-- Settles O8: the encoder writes each frame's fields in order, then the two bytes of the CRC word. -/
theorem wireLayoutOfEveryFrame : Obligations.WireLayoutOfEveryFrame :=
  ⟨fun _ _ => ⟨rfl, rfl, rfl⟩, fun _ _ _ _ => rfl, fun _ _ _ _ _ _ => rfl,
    fun w => ⟨toNat_lo8 w, toNat_hi8 w⟩, toNat_trailerWord⟩

/-- Settles O60: each word is its instruction's encoding, CRC included (V1, V2, V3, V27). -/
theorem writtenWordsDecode : Obligations.WrittenWordsDecode :=
  ⟨decode_of_encode_eq rfl (by decide +kernel), decode_of_encode_eq rfl (by decide +kernel),
    decode_of_encode_eq rfl (by decide +kernel), decode_of_encode_eq rfl (by decide +kernel),
    decode_of_encode_eq rfl (by decide +kernel)⟩

end Sys2Proof
end

section
/-! ByteUtils (spec/40_crc16.md). A byte entering the CRC register moves the register's low byte up and its high byte
out through the table (R101); this one equation and linearity give the bytewise form and the short inputs. The register
stays congruent to the bits read so far (R102 a), and two more zero bytes carry it to the XMODEM register (R102 e). -/

namespace Sys2Proof
open Machine

/-! ### One byte through the register (R101) -/

theorem trailerWord_eq_xor (t0 t1 : Byte) : trailerWord t0 t1 = (t1.setWidth 16 <<< 8) ^^^ t0.setWidth 16 := by
  have h := word_eq_bytes (trailerWord t0 t1)
  rwa [hi8_trailerWord, lo8_trailerWord] at h

theorem ofNat_eq_trailerWord (t0 t1 : Byte) : BitVec.ofNat 16 (t1.toNat * 256 + t0.toNat) = trailerWord t0 t1 := by
  rw [Nat.add_comm, Nat.mul_comm, ← toNat_trailerWord, BitVec.ofNat_toNat, BitVec.setWidth_eq]

theorem crcByte_zero_zero : crcByte 0 0 = 0 := crcByte_zero_left 0

/-- A register below 2^8 loses nothing to the reduction: the byte enters behind it. -/
theorem crcByte_setWidth (a b : Byte) : crcByte (a.setWidth 16) b = trailerWord b a := by
  have hshift : ∀ a : Byte, crcByte (a.setWidth 16) 0 = a.setWidth 16 <<< 8 := by decide +kernel
  calc crcByte (a.setWidth 16) b = crcByte (a.setWidth 16 ^^^ 0) (0 ^^^ b) := by simp
    _ = (a.setWidth 16 <<< 8) ^^^ b.setWidth 16 := by rw [crcByte_xor, hshift, crcByte_zero_left]
    _ = trailerWord b a := (trailerWord_eq_xor b a).symm

/-- What the high byte of the register leaves behind when it is shifted out is its table entry. -/
theorem crcByte_shiftLeft_zero (t : Byte) : crcByte (t.setWidth 16 <<< 8) 0 = crcTab t := by
  revert t
  decide +kernel

theorem crcByte_eq_table (acc : Word) (b : Byte) : crcByte acc b = crcTab (hi8 acc) ^^^ trailerWord b (lo8 acc) := by
  calc crcByte acc b
      = crcByte (((hi8 acc).setWidth 16 <<< 8) ^^^ (lo8 acc).setWidth 16) (0 ^^^ b) := by
        rw [← word_eq_bytes acc]; simp
    _ = crcTab (hi8 acc) ^^^ trailerWord b (lo8 acc) := by
        rw [crcByte_xor, crcByte_shiftLeft_zero, crcByte_setWidth]

theorem shiftLeft_eight_eq (w : Word) : w <<< 8 = (lo8 w).setWidth 16 <<< 8 := by
  apply BitVec.eq_of_toNat_eq
  simp only [BitVec.toNat_shiftLeft, BitVec.toNat_setWidth, toNat_lo8, Nat.shiftLeft_eq]
  omega

theorem crcTabByte_eq_crcByte : crcTabByte = crcByte := by
  funext acc b
  rw [crcByte_eq_table, crcTabByte, trailerWord, shiftLeft_eight_eq, BitVec.xor_comm, BitVec.or_comm]

/-! ### Short inputs (R100, R102 c and d) -/

theorem crc16_one (b : Byte) : crc16 [b] = b.setWidth 16 := crcByte_zero_left b

theorem crc16_two (a b : Byte) : crc16 [a, b] = trailerWord b a := by
  rw [← crcByte_setWidth, ← crc16_one]
  rfl

theorem crc16_three (a b c : Byte) : crc16 [a, b, c] = crcTab a ^^^ trailerWord c b := by
  have h : crc16 [a, b, c] = crcByte (trailerWord b a) c := by
    rw [← crc16_two]
    rfl
  rw [h, crcByte_eq_table, hi8_trailerWord, lo8_trailerWord]

theorem crc16_zero_cons (s : List Byte) : crc16 (0x00 :: s) = crc16 s := by
  simp only [crc16, List.foldl_cons]
  rw [show crcByte 0 0x00 = 0 from crcByte_zero_zero]

theorem crcTab_eq_crc16 (t : Byte) : crcTab t = crc16 [t, 0x00, 0x00] := by
  rw [crc16_three, show trailerWord 0x00 0x00 = 0#16 from rfl, BitVec.xor_zero]

/-! ### Linearity (R102 b) -/

theorem foldl_crcByte_xor {s t : List Byte} (h : s.length = t.length) (a b : Word) :
    (List.zipWith (fun x y => x ^^^ y) s t).foldl crcByte (a ^^^ b) = s.foldl crcByte a ^^^ t.foldl crcByte b := by
  induction s generalizing t a b with
  | nil => cases t with
    | nil => rfl
    | cons y t => cases h
  | cons x s ih => cases t with
    | nil => cases h
    | cons y t =>
      rw [List.zipWith_cons_cons, List.foldl_cons, List.foldl_cons, List.foldl_cons, crcByte_xor]
      exact ih (Nat.succ.inj h) _ _

theorem crc16_replicate_zero (n : Nat) : crc16 (List.replicate n 0x00) = 0 := by
  induction n with
  | zero => rfl
  | succ n ih => rw [List.replicate_succ, crc16_zero_cons, ih]

/-! ### The remainder of the message polynomial (R102 a) -/

theorem getLsbD_crcBit_zero (acc : Word) (bit : Bool) : (crcBit acc bit).getLsbD 0 = (acc.getLsbD 15 ^^ bit) := by
  rw [crcBit_eq]
  cases acc.getLsbD 15 <;> simp [crcPoly, -BitVec.getLsbD_eq_getElem]

theorem getLsbD_crcBit_succ (acc : Word) (bit : Bool) {k : Nat} (h : k < 15) :
    (crcBit acc bit).getLsbD (k + 1) = (acc.getLsbD k ^^ (acc.getLsbD 15 && crcPoly.getLsbD (k + 1))) := by
  have hk : k + 1 < 16 := by omega
  rw [crcBit_eq]
  cases acc.getLsbD 15 <;> simp [hk, -BitVec.getLsbD_eq_getElem]

/-- The bits of `x^16 + x^12 + x^5 + 1` above the constant term: those of R100's constant, bit 16, and none higher. -/
theorem testBit_crcModulus_succ (k : Nat) :
    crcModulus.testBit (k + 1) = (decide (k = 15) || crcPoly.getLsbD (k + 1)) := by
  by_cases hk : k < 16
  · revert k
    decide
  · have hlt : crcModulus < 2 ^ (k + 1) :=
      calc crcModulus < 2 ^ 17 := by decide
        _ ≤ 2 ^ (k + 1) := Nat.pow_le_pow_right (by decide) (by omega)
    rw [Nat.testBit_lt_two_pow hlt, BitVec.getLsbD_of_ge _ _ (by omega)]
    simp [show k ≠ 15 by omega]

/-- One step of the division: the bit that leaves the register says whether the modulus is subtracted. -/
theorem bit_eq_modulus_xor_crcBit (acc : Word) (bit : Bool) :
    Nat.bit bit acc.toNat = (if acc.getLsbD 15 then crcModulus else 0) ^^^ (crcBit acc bit).toNat := by
  apply Nat.eq_of_testBit_eq
  intro i
  have hsub : (if acc.getLsbD 15 then crcModulus else 0).testBit i = (acc.getLsbD 15 && crcModulus.testBit i) := by
    cases acc.getLsbD 15 <;> simp
  rw [Nat.testBit_xor, hsub, BitVec.testBit_toNat]
  cases i with
  | zero =>
    rw [Nat.testBit_bit_zero, getLsbD_crcBit_zero, show crcModulus.testBit 0 = true by decide]
    simp
  | succ k =>
    rw [Nat.testBit_bit_succ, BitVec.testBit_toNat, testBit_crcModulus_succ]
    rcases Nat.lt_trichotomy k 15 with hlow | rfl | hhigh
    · rw [getLsbD_crcBit_succ acc bit hlow]
      cases acc.getLsbD k <;> cases acc.getLsbD 15 <;> simp [hlow.ne]
    · simp
    · simp [BitVec.getLsbD_of_ge, hhigh.ne', show 16 ≤ k by omega, show 16 ≤ k + 1 by omega]

/-- The number `n` and the register `w` are congruent modulo the polynomial, over GF(2). -/
def CongruentModulo (n : Nat) (w : Word) : Prop := ∃ q, n = polyMul q crcModulus ^^^ w.toNat

theorem polyMul_append_bit (q : List Bool) (c : Bool) (p : Nat) :
    polyMul (q ++ [c]) p = Nat.bit false (polyMul q p) ^^^ (if c then p else 0) := by
  simp [polyMul, Nat.bit_val, Nat.mul_comm]

theorem congruentModulo_bit {n : Nat} {w : Word} (h : CongruentModulo n w) (bit : Bool) :
    CongruentModulo (Nat.bit bit n) (crcBit w bit) := by
  obtain ⟨q, rfl⟩ := h
  refine ⟨q ++ [w.getLsbD 15], ?_⟩
  calc Nat.bit bit (polyMul q crcModulus ^^^ w.toNat)
      = Nat.bit false (polyMul q crcModulus) ^^^ Nat.bit bit w.toNat := by rw [Nat.xor_bit]; cases bit <;> rfl
    _ = polyMul (q ++ [w.getLsbD 15]) crcModulus ^^^ (crcBit w bit).toNat := by
        rw [bit_eq_modulus_xor_crcBit, polyMul_append_bit, Nat.xor_assoc]

/-- A byte appended to a number is its eight bits appended, most significant first (R42). -/
theorem foldl_bit_byte (n : Nat) (b : Byte) :
    [7, 6, 5, 4, 3, 2, 1, 0].foldl (fun m i => Nat.bit (b.getLsbD i) m) n = n * 256 + b.toNat := by
  have hzero : ∀ b : Byte, [7, 6, 5, 4, 3, 2, 1, 0].foldl (fun m i => Nat.bit (b.getLsbD i) m) 0 = b.toNat := by
    decide +kernel
  rw [← hzero b]
  simp only [List.foldl, Nat.bit_val]
  omega

theorem congruentModulo_byte {n : Nat} {w : Word} (h : CongruentModulo n w) (b : Byte) :
    CongruentModulo (n * 256 + b.toNat) (crcByte w b) := by
  rw [← foldl_bit_byte]
  exact List.foldl_rel h fun i _ _ _ hi => congruentModulo_bit hi (b.getLsbD i)

theorem congruentModulo_bigEndian_crc16 (s : List Byte) : CongruentModulo (bigEndian s) (crc16 s) :=
  List.foldl_rel ⟨[], rfl⟩ fun b _ _ _ h => congruentModulo_byte h b

/-! ### Two zero bytes behind the message (R102 e) -/

/-- The register after two more zero bytes. -/
def augment (acc : Word) : Word := crcByte (crcByte acc 0) 0

theorem crc16_append_two_zeros (s : List Byte) : crc16 (s ++ [0x00, 0x00]) = augment (crc16 s) := crc16_append s _

theorem augment_xor (a b : Word) : augment (a ^^^ b) = augment a ^^^ augment b := by
  simp only [augment, ← crcByte_xor, BitVec.xor_self]
  rfl

/-- A zero bit entered before or after the sixteen zero bits is the same. -/
theorem augment_crcBit_false (acc : Word) : augment (crcBit acc false) = crcBit (augment acc) false := by
  simp only [augment, crcByte, List.foldl, BitVec.ofNat_eq_ofNat, BitVec.getLsbD_zero]

/-- A message bit that enters behind the register is the polynomial when it has passed through. -/
theorem augment_bit (bit : Bool) : augment (crcBit 0 bit) = if bit then crcPoly else 0 := by
  cases bit <;> decide +kernel

theorem crcBit_eq_xor (acc : Word) (bit : Bool) : crcBit acc bit = crcBit acc false ^^^ crcBit 0 bit := by
  rw [← crcBit_xor]
  simp

theorem xmodemBit_eq_xor (acc : Word) (bit : Bool) :
    xmodemBit acc bit = crcBit acc false ^^^ if bit then crcPoly else 0 := by
  rw [crcBit_eq, xmodemBit]
  cases acc.getLsbD 15 <;> cases bit <;> simp

theorem xmodemBit_augment (acc : Word) (bit : Bool) : xmodemBit (augment acc) bit = augment (crcBit acc bit) := by
  rw [xmodemBit_eq_xor, crcBit_eq_xor acc bit, augment_xor, augment_crcBit_false, augment_bit]

theorem xmodemByte_augment (acc : Word) (b : Byte) : xmodemByte (augment acc) b = augment (crcByte acc b) :=
  List.foldl_hom augment fun acc i => xmodemBit_augment acc (b.getLsbD i)

theorem crcXmodem_eq_augment (s : List Byte) : crcXmodem s = augment (crc16 s) :=
  calc crcXmodem s = s.foldl xmodemByte (augment 0) := by
        rw [crcXmodem, show augment 0 = 0 by rw [augment, crcByte_zero_zero, crcByte_zero_zero]]
    _ = augment (crc16 s) := List.foldl_hom augment xmodemByte_augment

/-! ### POPCOUNT (R103) -/

theorem sum_map_toNat_eq_countP (p : Nat → Bool) (l : List Nat) : (l.map fun i => (p i).toNat).sum = l.countP p := by
  induction l with
  | nil => rfl
  | cons i l ih =>
    rw [List.map_cons, List.sum_cons, ih, List.countP_cons, Nat.add_comm]
    cases p i <;> rfl

theorem popcount_eq_countP (b : Byte) : popcount b = (List.range 8).countP (fun i => b.getLsbD i) :=
  sum_map_toNat_eq_countP (fun i => b.getLsbD i) (List.range 8)

theorem popcount_le_eight (b : Byte) : popcount b ≤ 8 := by
  rw [popcount_eq_countP]
  exact List.countP_le_length

/-! ### The statements -/

/-- Settles O10: every byte read keeps the register congruent to the number read so far. -/
theorem crcIsPolynomialRemainder : Obligations.CrcIsPolynomialRemainder := congruentModulo_bigEndian_crc16

/-- Settles O9: the two forms agree on one byte, and a table entry is the CRC of `[t, 0, 0]`, so by O10 a remainder. -/
theorem bytewiseCrcAgrees : Obligations.BytewiseCrcAgrees := by
  refine ⟨fun s => ?_, crcTab_eq_crc16, fun t => ?_⟩
  · rw [crc16Bytewise, crcTabByte_eq_crcByte, crc16]
  · have hnumber : bigEndian [t, 0x00, 0x00] = t.toNat * 65536 := by simp [bigEndian, Nat.mul_assoc]
    rw [← hnumber, crcTab_eq_crc16]
    exact congruentModulo_bigEndian_crc16 _

/-- Settles O11: each byte is linear, and a zero byte leaves a zero register. -/
theorem crcIsLinear : Obligations.CrcIsLinear :=
  ⟨fun _ _ h => foldl_crcByte_xor h 0 0, crc16_replicate_zero⟩

/-- Settles O12: up to two bytes stand in the register as they are; a third shifts the first through the table. -/
theorem crcOfShortInputs : Obligations.CrcOfShortInputs := by
  refine ⟨rfl, fun b => ?_, fun a b => ?_, crc16_zero_cons, fun a b c => ?_⟩
  · rw [crc16_one, BitVec.toNat_setWidth_of_le (by decide)]
  · rw [crc16_two, toNat_trailerWord]
    omega
  · rw [crc16_three, ofNat_eq_trailerWord]

/-- Settles O13: the XMODEM register is the CRC register two zero bytes later, bit by bit. -/
theorem augmentedCrcIsXmodem : Obligations.AugmentedCrcIsXmodem := fun s => by
  rw [crc16_append_two_zeros, crcXmodem_eq_augment]

/-- Settles O15: a sum of bits is their count, over eight positions; the worked values of R103 by evaluation. -/
theorem popcountCountsSetBits : Obligations.PopcountCountsSetBits :=
  ⟨fun b => ⟨popcount_eq_countP b, popcount_le_eight b⟩, by decide, by decide, by decide⟩

end Sys2Proof
end

section
/-! The frame codec as a stream reader (spec/41_frame_codec.md section 3): the decoder's answer to every buffer, and
`EXTRACT` as the decoder at the least offset whose suffix is short or a frame. The decoder looks at no more than nine
bytes, so what stands behind them does not change what `EXTRACT` finds. -/

namespace Sys2Proof

/-! ### The decoder's answers (R113, R218) -/

theorem decode_of_tooShort {b : List Byte} (h : b.length < 3) : decode b = .error .tooShort := by
  simp [decode, h]

theorem decode_of_incomplete {b : List Byte} (h3 : 3 ≤ b.length) (h : b.length < flen (byteAt b 2) + 2) :
    decode b = .error .incomplete := by
  simp [decode, h3.not_gt, h]

theorem decode_of_complete {b : List Byte} (h : flen (byteAt b 2) + 2 ≤ b.length) :
    decode b =
      if crc16 (b.take (flen (byteAt b 2))) =
          trailerWord (byteAt b (flen (byteAt b 2))) (byteAt b (flen (byteAt b 2) + 1)) then
        .ok (instrOf (b.take (flen (byteAt b 2))), b.drop (flen (byteAt b 2) + 2))
      else .error .crcMismatch := by
  have h3 : ¬ b.length < 3 := by
    have := three_le_flen (byteAt b 2)
    omega
  simp only [decode, h3, h.not_gt, if_false, ne_eq, ite_not]

/-- How many bytes stand in the buffer: none for a length byte, not all of the frame, or all of it. -/
theorem bufferLength_cases (b : List Byte) :
    b.length < 3 ∨ (3 ≤ b.length ∧ b.length < flen (byteAt b 2) + 2) ∨ flen (byteAt b 2) + 2 ≤ b.length := by
  omega

theorem decode_tooShort_iff (b : List Byte) : decode b = .error .tooShort ↔ b.length < 3 := by
  refine ⟨fun h => ?_, decode_of_tooShort⟩
  rcases bufferLength_cases b with hs | ⟨h3, hi⟩ | hc
  · exact hs
  · simp [decode_of_incomplete h3 hi] at h
  · rw [decode_of_complete hc] at h
    split at h <;> cases h

theorem decode_incomplete_iff (b : List Byte) :
    decode b = .error .incomplete ↔ 3 ≤ b.length ∧ b.length < flen (byteAt b 2) + 2 := by
  refine ⟨fun h => ?_, fun h => decode_of_incomplete h.1 h.2⟩
  rcases bufferLength_cases b with hs | hi | hc
  · simp [decode_of_tooShort hs] at h
  · exact hi
  · rw [decode_of_complete hc] at h
    split at h <;> cases h

/-- An answer past the first two tests needs the wire length. -/
theorem complete_of_decode {b : List Byte} (hs : decode b ≠ .error .tooShort) (hi : decode b ≠ .error .incomplete) :
    flen (byteAt b 2) + 2 ≤ b.length := by
  rcases bufferLength_cases b with h | ⟨h3, h⟩ | h
  · exact absurd (decode_of_tooShort h) hs
  · exact absurd (decode_of_incomplete h3 h) hi
  · exact h

theorem decode_mismatch_iff (b : List Byte) :
    decode b = .error .crcMismatch ↔
      flen (byteAt b 2) + 2 ≤ b.length ∧
        crc16 (b.take (flen (byteAt b 2))) ≠
          trailerWord (byteAt b (flen (byteAt b 2))) (byteAt b (flen (byteAt b 2) + 1)) := by
  constructor
  · intro h
    have hc : flen (byteAt b 2) + 2 ≤ b.length := complete_of_decode (by simp [h]) (by simp [h])
    exact ⟨hc, fun he => by simp [decode_of_complete hc, he] at h⟩
  · rintro ⟨hc, hne⟩
    rw [decode_of_complete hc, if_neg hne]

theorem decode_isOk_iff (b : List Byte) :
    (∃ i rest, decode b = .ok (i, rest)) ↔
      flen (byteAt b 2) + 2 ≤ b.length ∧
        crc16 (b.take (flen (byteAt b 2))) =
          trailerWord (byteAt b (flen (byteAt b 2))) (byteAt b (flen (byteAt b 2) + 1)) := by
  constructor
  · rintro ⟨i, rest, h⟩
    obtain ⟨hc, he, -, -⟩ := decode_ok h
    exact ⟨hc, he⟩
  · rintro ⟨hc, he⟩
    exact ⟨_, _, by rw [decode_of_complete hc, if_pos he]⟩

/-- The first two tests of R113 say that bytes are missing. -/
theorem decode_short_iff (b : List Byte) :
    (∃ why, decode b = .error why ∧ why ≠ .crcMismatch) ↔ b.length < 3 ∨ b.length < flen (byteAt b 2) + 2 := by
  constructor
  · rintro ⟨why, h, hne⟩
    cases why with
    | tooShort => exact .inl ((decode_tooShort_iff b).1 h)
    | incomplete => exact .inr ((decode_incomplete_iff b).1 h).2
    | crcMismatch => contradiction
  · intro h
    by_cases h3 : b.length < 3
    · exact ⟨_, decode_of_tooShort h3, by decide⟩
    · exact ⟨_, decode_of_incomplete (by omega) (h.resolve_left h3), by decide⟩

/-- A short buffer holds at most 8 bytes, and more than 4 only behind the code of a Set (R116 a). -/
theorem length_of_short {b : List Byte} (h : b.length < 3 ∨ b.length < flen (byteAt b 2) + 2) :
    b.length ≤ 8 ∧ (b.length ≤ 4 ∨ (3 ≤ b.length ∧ byteAt b 2 = 0x03)) := by
  by_cases hset : byteAt b 2 = Config.codeSet
  · rw [hset, flen_set] at h
    have hcode : byteAt b 2 = 0x03 := hset
    simp only [hcode, and_true]
    omega
  · rw [flen_of_ne hset] at h
    omega

theorem flen_add_two_le_nine (c : Byte) : flen c + 2 ≤ 9 := by
  rcases flen_cases c with h | h <;> omega

/-! ### What a frame found holds (R112) -/

theorem fields_take_flen (w : List Byte) : fields (w.take (flen (byteAt w 2))) = fields w := by
  by_cases hset : byteAt w 2 = Config.codeSet
  · simp only [fields, hset, flen_set, byteAt_take (show 0 < 7 by decide), byteAt_take (show 1 < 7 by decide),
      byteAt_take (show 2 < 7 by decide), byteAt_take (show 3 < 7 by decide), byteAt_take (show 4 < 7 by decide),
      byteAt_take (show 5 < 7 by decide), byteAt_take (show 6 < 7 by decide)]
  · simp only [fields, flen_of_ne hset, hset, if_false, byteAt_take (show 0 < 3 by decide),
      byteAt_take (show 1 < 3 by decide), byteAt_take (show 2 < 3 by decide)]

theorem decode_ok_fields {b rest : List Byte} {i : Instr} (h : decode b = .ok (i, rest)) : i.frame = fields b := by
  obtain ⟨-, -, rfl, -⟩ := decode_ok h
  rw [instrOf_frame, fields_take_flen]

theorem decode_ok_take {b rest : List Byte} {i : Instr} (h : decode b = .ok (i, rest)) :
    b.take i.wireLen = encode i := by
  rw [eq_encode_append_of_decode_ok h, ← encode_length i (decode_ok_wf h), List.take_left]

/-! ### The decoder looks at nine bytes (R116 c) -/

theorem byteAt_take_append {b : List Byte} {n k : Nat} (hn : k < n) (hk : k < b.length) (t : List Byte) :
    byteAt (b.take n ++ t) k = byteAt b k := by
  rw [byteAt, List.getD_append _ _ _ _ (by rw [List.length_take]; omega), ← byteAt, byteAt_take hn]

theorem decode_take_append_of_mismatch {b : List Byte} {n : Nat} (hn : 9 ≤ n) (h : decode b = .error .crcMismatch)
    (t : List Byte) : decode (b.take n ++ t) = .error .crcMismatch := by
  obtain ⟨hlen, hcrc⟩ := (decode_mismatch_iff b).1 h
  have htwo := three_le_flen (byteAt b 2)
  have hnine := flen_add_two_le_nine (byteAt b 2)
  have hcode : byteAt (b.take n ++ t) 2 = byteAt b 2 := byteAt_take_append (by omega) (by omega) t
  rw [decode_mismatch_iff, hcode]
  refine ⟨by rw [List.length_append, List.length_take]; omega, ?_⟩
  rwa [byteAt_take_append (by omega) (by omega), byteAt_take_append (by omega) (by omega),
    List.take_append_of_le_length (by rw [List.length_take]; omega), List.take_take, min_eq_left (by omega)]

theorem decode_take_append_of_ok {b rest : List Byte} {i : Instr} {n : Nat} (hn : 9 ≤ n)
    (h : decode b = .ok (i, rest)) (t : List Byte) :
    decode (b.take n ++ t) = .ok (i, (b.take n).drop i.wireLen ++ t) := by
  have hle : i.wireLen ≤ n := (flen_add_two_le_nine i.frame.code).trans hn
  have hhead : (b.take n).take i.wireLen = encode i := by
    rw [List.take_take, min_eq_left hle, decode_ok_take h]
  rw [← List.take_append_drop i.wireLen (b.take n), hhead, List.append_assoc,
    decode_encode_append (decode_ok_wf h), ← hhead]
  simp

/-! ### Resynchronisation by offsets (R113 step 5, R115, R116) -/

theorem extract_of_ok {b rest : List Byte} {i : Instr} (h : decode b = .ok (i, rest)) :
    extract b = (some i, rest) := by
  simp [extract, resync_of_no_mismatch (b := b) (by simp [h]), h]

theorem extract_of_short {b : List Byte} {why : DecodeReject} (h : decode b = .error why) (hne : why ≠ .crcMismatch) :
    extract b = (none, b) := by
  simp [extract, resync_of_no_mismatch (b := b) (by simp [h, hne]), h]

/-- Where `EXTRACT` answers none, what it leaves is the resynchronised buffer, and it is short. -/
theorem extract_none {b r : List Byte} (h : extract b = (none, r)) :
    r = resync b ∧ ∃ why, decode r = .error why ∧ why ≠ .crcMismatch := by
  rcases extract_cases b with ⟨i, rest, -, e⟩ | ⟨why, hd, hne, e⟩
  · simp [e] at h
  · obtain rfl : resync b = r := by simpa [e] using h
    exact ⟨rfl, why, hd, hne⟩

theorem extract_some {b rest : List Byte} {i : Instr} (h : extract b = (some i, rest)) :
    decode (resync b) = .ok (i, rest) := by
  rcases extract_cases b with ⟨j, r, hd, e⟩ | ⟨why, -, -, e⟩
  · rw [hd, Except.ok.injEq, Prod.mk.injEq]
    simpa [e] using h
  · simp [e] at h

/-- Offsets that fail the CRC are dropped. -/
theorem resync_drop_of_mismatches {b : List Byte} {d : Nat} (h : ∀ e < d, decode (b.drop e) = .error .crcMismatch) :
    resync (b.drop d) = resync b := by
  induction d generalizing b with
  | zero => rfl
  | succ d ih =>
    cases b with
    | nil => rfl
    | cons x b =>
      have hhead : decode (x :: b) = .error .crcMismatch := h 0 (Nat.succ_pos d)
      rw [resync_of_mismatch hhead, List.drop_succ_cons]
      exact ih fun e he => h (e + 1) (Nat.succ_lt_succ he)

theorem extract_drop_of_mismatches {b : List Byte} {d : Nat} (h : ∀ e < d, decode (b.drop e) = .error .crcMismatch) :
    extract (b.drop d) = extract b := by
  rw [extract, extract, resync_drop_of_mismatches h]

/-- The least offset whose suffix is short or a frame. -/
theorem exists_least_not_mismatch (b : List Byte) :
    ∃ d ≤ b.length, (∀ e < d, decode (b.drop e) = .error .crcMismatch) ∧ decode (b.drop d) ≠ .error .crcMismatch := by
  classical
  have hend : decode (b.drop b.length) ≠ .error .crcMismatch := by
    rw [List.drop_length]
    decide
  have hex : ∃ d, decode (b.drop d) ≠ .error .crcMismatch := ⟨_, hend⟩
  exact ⟨Nat.find hex, Nat.find_min' hex hend, fun e he => not_not.1 (Nat.find_min hex he), Nat.find_spec hex⟩

/-- Bytes beyond the ninth behind the frame's offset change neither the frame nor what is left before them. -/
theorem extract_take_append {b rest : List Byte} {i : Instr} {d : Nat} (hd : d ≤ b.length)
    (hmis : ∀ e < d, decode (b.drop e) = .error .crcMismatch) (hok : decode (b.drop d) = .ok (i, rest))
    (t : List Byte) :
    extract (b.take (d + 9) ++ t) = (some i, (b.take (d + 9)).drop (d + i.wireLen) ++ t) := by
  have hdrop : ∀ e ≤ d, (b.take (d + 9) ++ t).drop e = (b.drop e).take (d + 9 - e) ++ t := fun e he => by
    rw [List.drop_append_of_le_length (by rw [List.length_take]; omega), List.drop_take]
  have hmis' : ∀ e < d, decode ((b.take (d + 9) ++ t).drop e) = .error .crcMismatch := fun e he => by
    rw [hdrop e he.le]
    exact decode_take_append_of_mismatch (by omega) (hmis e he) t
  rw [← extract_drop_of_mismatches hmis', hdrop d le_rfl, extract_of_ok (decode_take_append_of_ok (by omega) hok t),
    ← List.drop_take, List.drop_drop]

/-- A byte is dropped only where at least 4 stay behind it (R115). -/
theorem four_le_length_resync {b : List Byte} (h : 4 ≤ b.length) : 4 ≤ (resync b).length := by
  induction b with
  | nil => exact h
  | cons x b ih =>
    by_cases hm : decode (x :: b) = .error .crcMismatch
    · rw [resync_of_mismatch hm]
      exact ih (Nat.le_of_succ_le_succ (decode_mismatch_length hm))
    · rwa [resync_of_no_mismatch hm]

theorem dropped_le (b : List Byte) : b.length - (resync b).length ≤ b.length - 4 := by
  by_cases h : 4 ≤ b.length
  · have := four_le_length_resync h
    omega
  · have hm : decode b ≠ .error .crcMismatch := fun hm => by
      have := decode_mismatch_length hm
      omega
    simp [resync_of_no_mismatch hm]

/-- A mismatch at the head makes what is left a proper suffix (R114). -/
theorem resync_length_lt {b : List Byte} (h : decode b = .error .crcMismatch) : (resync b).length < b.length := by
  cases b with
  | nil => cases h
  | cons x b =>
    rw [resync_of_mismatch h]
    exact Nat.lt_succ_of_le (resync_suffix b).length_le

/-! ### The statements -/

/-- Settles O1: a well-formed record is an instruction's, decoding inverts encoding at once and needs no
resynchronisation; conversely what the decoder took at the resynchronised head is an encoding. -/
theorem encodeThenExtractRoundTrip : Obligations.EncodeThenExtractRoundTrip := by
  have hvector : encode (.get 0x05 0x80) = [0x05, 0x80, 0x04, 0xA1, 0xD0] := by decide +kernel
  refine ⟨fun f hf => ?_, fun b i rest h => ?_, hvector, decode_of_encode_eq rfl hvector⟩
  · obtain ⟨i, hi⟩ := Option.isSome_iff_exists.1 ((instr?_isSome_iff f).2 hf)
    obtain ⟨hframe, hwf⟩ := instr?_some hi
    refine ⟨i, encode i, hi, hframe, by rw [encodeFrame, hi, Option.map_some], fun t => ?_⟩
    have hdecode := decode_encode_append hwf t
    exact ⟨hdecode, extract_of_ok hdecode⟩
  · exact eq_encode_append_of_decode_ok (extract_some h)

/-- Settles O3: one equivalence for each answer. -/
theorem decoderTestsInOrder : Obligations.DecoderTestsInOrder := fun b =>
  ⟨decode_tooShort_iff b, decode_incomplete_iff b, decode_mismatch_iff b, decode_isOk_iff b⟩

/-- Settles O5: the mismatches before the least offset drop out of `EXTRACT`, which then answers as the decoder does
there; the nine bytes that the decoder looks at decide each of these answers. -/
theorem extractStopsAtFirstShortOrValidSuffix : Obligations.ExtractStopsAtFirstShortOrValidSuffix := fun b => by
  obtain ⟨d, hd, hmis, hstop⟩ := exists_least_not_mismatch b
  refine ⟨d, hd, hmis, hstop, fun ⟨why, hwhy⟩ => ?_, fun i rest hok => ?_, extract_suffix b⟩
  · have hne : why ≠ .crcMismatch := fun h => hstop (h ▸ hwhy)
    exact ⟨extract_drop_of_mismatches hmis ▸ extract_of_short hwhy hne,
      length_of_short ((decode_short_iff _).1 ⟨why, hwhy, hne⟩)⟩
  · refine ⟨extract_drop_of_mismatches hmis ▸ extract_of_ok hok, decode_ok_fields hok, ?_, decode_ok_take hok,
      extract_take_append hd hmis hok⟩
    rw [(decode_ok_rest hok).1, List.drop_drop]
    rfl

/-- Settles O6: one byte a mismatch by definition, the bound by the five bytes that a mismatch needs. -/
theorem resyncDropsOneByteAndTerminates : Obligations.ResyncDropsOneByteAndTerminates :=
  ⟨fun _ _ => resync_of_mismatch, fun _ => resync_of_no_mismatch, fun b => ⟨resync_suffix b, dropped_le b⟩⟩

/-- Settles O7: a short head ends `EXTRACT`, what it leaves with none is short, and a mismatch dropped a byte. -/
theorem incompleteHeadIsLeftUnchanged : Obligations.IncompleteHeadIsLeftUnchanged := by
  refine ⟨fun b h => ?_, fun b r h => ?_, fun b r hm h => ?_⟩
  · obtain ⟨why, hwhy, hne⟩ := (decode_short_iff b).2 h
    exact extract_of_short hwhy hne
  · obtain ⟨rfl, why, hwhy, hne⟩ := extract_none h
    exact ⟨resync_suffix b, extract_of_short hwhy hne⟩
  · obtain ⟨rfl, -⟩ := extract_none h
    exact ⟨resync_suffix b, resync_length_lt hm⟩

end Sys2Proof
end

section
/-! The Transport (spec/42_transport.md). What one operation can do to `PORT_OUT` is said once: it keeps consecutive
bytes of what stood there, or it is a send into an empty port. An arrival is one run of extractions from the state that
`RX_ARRIVE` extracts in, and a run long enough reads the stream of `RXBUF` to its end. -/

namespace Sys2Proof
namespace Machine

/-! ### What an operation does to `PORT_OUT` (R134, R135, R136) -/

/-- `PORT_OUT` keeps consecutive bytes of what it held, or it was empty and takes a first part of one frame of the
master. -/
def PortOutMove (before after : List Byte) : Prop :=
  after <:+: before ∨
    before = [] ∧ ∃ i : Instr, i.wf ∧ i.frame.sender = Config.masterAddr ∧ after <+: encode i

theorem portOutMove_of_eq {before after : List Byte} (h : after = before) : PortOutMove before after :=
  .inl (h ▸ List.infix_refl _)

theorem exec_portOutMove {i : Instr} {s t : State} (h : exec i s = .next t) : PortOutMove s.portOut t.portOut := by
  obtain ⟨hwf, ⟨-, -, rfl⟩ | ⟨-, ht⟩ | ⟨caller, timeout, -, hsender, -, ht⟩⟩ := exec_next h
  · exact portOutMove_of_eq rfl
  · obtain ⟨hframe, -⟩ := routeFrame_frame i.frame (handlerOf i s) ht
    have hkept := congrArg State.portOut hframe
    exact portOutMove_of_eq hkept
  · obtain ⟨-, hsame | ⟨hempty, hpart⟩, -⟩ := ht.frame
    · exact portOutMove_of_eq hsame
    · exact .inr ⟨hempty, i, hwf, hsender, hpart⟩

theorem lineDrain_eq_some {k : Nat} {s t : State} :
    lineDrain k s = some t ↔
      (1 ≤ k ∧ k ≤ s.portOut.length) ∧ t = { s with wireOut := s.portOut.take k, portOut := s.portOut.drop k } := by
  unfold lineDrain
  split <;> simp_all [eq_comm]

theorem rxArrive_portOut {id : Nat} {draw : ArriveDraw} {s t : State} (h : rxArrive id draw s = some (.next t)) :
    t.portOut = s.portOut := by
  obtain ⟨-, -, -, -, hserve⟩ := rxArrive_next h
  obtain ⟨u, hu, hform, -⟩ := serveArrival_next (.arrival id) draw
    (s := { s with arrivals := s.arrivals - 1, rxLock := some (.arrival id), portLock := some (.arrival id) }) rfl rfl
  obtain rfl : t = u := Host.Outcome.next.inj (hserve.symm.trans hu)
  have hkept := congrArg State.portOut hform
  exact hkept

theorem pollStep_portOutMove {caller : Agent} {draw : PollDraw} {s t : State}
    (h : pollStep caller draw s = some (.next t)) : PortOutMove s.portOut t.portOut := by
  obtain ⟨-, -, hget | ⟨a, c, c', u, -, -, -, hset, rfl⟩⟩ := pollStep_next h
  · have hsent := exec_portOutMove hget
    exact hsent
  · obtain ⟨hafter, -⟩ := afterSet_eq a c c' u
    have hkept := congrArg State.portOut hafter
    have hsent := exec_portOutMove hset
    rw [hkept]
    exact hsent

/-- A bus operation that is a plain update does to `PORT_OUT` what the update does. -/
theorem onPollAgent_portOut {caller : Agent} {s t u : State}
    (ht : onPollAgent caller s (some (.next u)) = some (.next t)) (hu : u.portOut = s.portOut) :
    t.portOut = s.portOut := by
  obtain ⟨-, -, ht⟩ := onPollAgent_next ht
  obtain rfl := Host.Outcome.next.inj (Option.some.inj ht)
  exact hu

theorem openPort_portOut (timeout : Bool) (s : State) : (openPort timeout s).portOut = s.portOut := by
  cases timeout <;> rfl

/-- Everything an operation can do to `PORT_OUT`: a drain and a reset take bytes away, a send and a poll tick may put
one frame in, and no other operation touches it. -/
theorem runAction_portOutMove {a : Action} {s t : State} (h : runAction a s = some (.next t)) :
    PortOutMove s.portOut t.portOut := by
  cases a with
  | lineDeliver first others =>
    obtain rfl := Host.Outcome.next.inj (Option.some.inj h)
    exact portOutMove_of_eq rfl
  | lineDrain k =>
    obtain ⟨u, hu, e⟩ := Option.map_eq_some_iff.1 h
    obtain rfl := Host.Outcome.next.inj e
    obtain ⟨-, rfl⟩ := lineDrain_eq_some.1 hu
    exact .inl (List.drop_suffix k s.portOut).isInfix
  | rxArrive id draw => exact portOutMove_of_eq (rxArrive_portOut h)
  | send caller f timeout =>
    simp only [runAction] at h
    split at h
    · cases h
    · obtain ⟨i, -, -, he⟩ := sendOp_next h
      have hsent := exec_portOutMove he
      exact hsent
  | dispatch caller =>
    obtain ⟨f, q, i, -, -, he⟩ := dispatch_next h
    have hrouted := exec_portOutMove he
    exact hrouted
  | register caller a =>
    obtain ⟨-, rfl | ⟨-, rfl⟩⟩ := registerUnit_next h <;> exact portOutMove_of_eq rfl
  | unregister caller a => exact portOutMove_of_eq (onPollAgent_portOut h rfl)
  | openPort timeout => exact portOutMove_of_eq (onPollAgent_portOut h (openPort_portOut timeout s))
  | reset =>
    obtain rfl := Host.Outcome.next.inj (Option.some.inj h)
    exact .inl List.nil_infix
  | poll caller draw => exact pollStep_portOutMove h
  | request a r => exact portOutMove_of_eq (onPollAgent_portOut (caller := .poll) h rfl)
  | storeSet target => exact portOutMove_of_eq (onPollAgent_portOut h rfl)
  | loadAll => exact portOutMove_of_eq (onPollAgent_portOut h rfl)
  | flush ok =>
    obtain ⟨x, -, e⟩ := Option.map_eq_some_iff.1 h
    obtain rfl := Host.Outcome.next.inj e
    exact portOutMove_of_eq rfl
  | tick d =>
    obtain rfl := Host.Outcome.next.inj (Option.some.inj h)
    exact portOutMove_of_eq rfl

/-! ### One frame in `PORT_OUT` (R134, R140) -/

theorem OneFrameOut.of_move {s t : State} (h : OneFrameOut s) (hmove : PortOutMove s.portOut t.portOut) :
    OneFrameOut t := by
  rcases hmove with hkept | ⟨-, i, hwf, hsender, hpart⟩
  · rcases h with hempty | ⟨i, hwf, hsender, hin⟩
    · exact .inl (List.infix_nil.1 (hempty ▸ hkept))
    · exact .inr ⟨i, hwf, hsender, hkept.trans hin⟩
  · exact .inr ⟨i, hwf, hsender, hpart.isInfix⟩

/-- One frame has at most 9 bytes (R47, R70). -/
theorem OneFrameOut.length_le {s : State} (h : OneFrameOut s) : s.portOut.length ≤ 9 := by
  rcases h with hempty | ⟨i, hwf, -, hin⟩
  · simp [hempty]
  · calc s.portOut.length ≤ (encode i).length := hin.length_le
      _ = i.wireLen := encode_length i hwf
      _ ≤ 9 := flen_add_two_le_nine i.frame.code

/-- Settles O55: a step is one operation of the agenda, which moves `PORT_OUT` as said above, or idling. -/
theorem portOutHoldsAtMostOneFrame : Obligations.PortOutHoldsAtMostOneFrame := by
  intro s t h ht
  have ht' : OneFrameOut t := by
    rcases step_cases s with ⟨a, -, g, hg, -⟩ | hidle
    · have hagenda : OneFrameOut { s with agenda := g } := h
      exact hagenda.of_move (runAction_portOutMove (by rw [runAction_of_attempt hg, ht]))
    · rwa [idleStep_next (hidle.symm.trans ht)]
  exact ⟨ht', ht'.length_le⟩

/-! ### The line and a send -/

theorem txBusy_iff (s : State) : txBusy s = true ↔ s.portOut ≠ [] := by
  simp [txBusy, List.length_pos_iff]

theorem encode_ne_nil {i : Instr} (h : i.wf) : encode i ≠ [] := by
  have hlen := encode_length i h
  rw [← List.length_pos_iff]
  rcases wireLen_cases i with e | e <;> omega

/-- Settles O23: the hypotheses are those of a ready send, and an empty `PORT_OUT` is not busy. -/
theorem sendWritesTheWholeFrame : Obligations.SendWritesTheWholeFrame := by
  intro i caller s hwf hsender hstage hopen hport hempty
  have hidle : txBusy s = false := by simp [txBusy, hempty]
  constructor
  · rw [exec_of_wf hwf, runFrame, hstage]
    simp [sendFrame_of_ready i caller none hsender hopen hport, hidle]
  · exact (txBusy_iff _).2 (encode_ne_nil hwf)

/-- Settles O28: by definition of the delivery. -/
theorem lineDeliverAppends : Obligations.LineDeliverAppends := fun _ _ _ => rfl

/-- Settles O29: the drain's guard is the stated range of `k`, and what is left is not empty below the length. -/
theorem lineDrainTakesTheFront : Obligations.LineDrainTakesTheFront := by
  intro k s
  refine ⟨fun hpos hle => ?_, fun hout => ?_, ?_⟩
  · rw [runAction, lineDrain_eq_some.2 ⟨⟨hpos, hle⟩, rfl⟩, Option.map_some]
  · have hnone : lineDrain k s = none := if_neg (by omega)
    rw [runAction, hnone, Option.map_none]
  · simp [txBusy]

/-! ### A run of extractions -/

theorem extractions_of_once {s : State} (h : s.params.extracts = .once) : extractions s = 1 := by
  simp [extractions, h]

theorem extractions_of_untilNone {s : State} (h : s.params.extracts = .untilNone) :
    extractions s = s.rxBuf.length + 1 := by
  simp [extractions, h]

/-- One extraction, between steps: `EXTRACT` on `RXBUF`, its frame in `FR` and behind `DELIVQ` (R132). -/
theorem extractTimes_one {s : State} (hs : s.stage = .receive) :
    extractTimes 1 s = .next { s with
      rxBuf := (extract s.rxBuf).2
      fr := (extract s.rxBuf).1.map Instr.frame
      delivQ := s.delivQ ++ ((extract s.rxBuf).1.map Instr.frame).toList } := by
  rw [extractTimes_succ]
  rcases extract_cases s.rxBuf with ⟨i, rest, -, e⟩ | ⟨why, -, -, e⟩ <;> rw [e]
  · simp [extractTimes, ← hs]
  · simp

/-- A stream ends at a head that is short. -/
theorem Parses.stops {b r : List Byte} {is : List Instr} (h : Parses b is r) :
    ∃ why, decode r = .error why ∧ why ≠ .crcMismatch := by
  induction h with
  | stop h hne => exact ⟨_, h, hne⟩
  | drop _ _ ih => exact ih
  | take _ _ ih => exact ih

theorem Parses.length_le {b r : List Byte} {is : List Instr} (h : Parses b is r) : r.length ≤ 8 :=
  (length_of_short ((decode_short_iff r).1 h.stops)).1

/-- More extractions than the stream of `RXBUF` has frames deliver them all and reach `None` (R54, R132). -/
theorem extractTimes_of_parses {b r : List Byte} {is : List Instr} (h : Parses b is r) {n : Nat}
    (hn : is.length ≤ n) {s : State} (hb : s.rxBuf = b) (hs : s.stage = .receive) :
    extractTimes (n + 1) s = .next { s with rxBuf := r, fr := none, delivQ := s.delivQ ++ is.map Instr.frame } := by
  induction h generalizing n s with
  | stop h hne =>
    rw [extractTimes_succ, hb, extract_of_short h hne]
    simp
  | @drop x b r is h _ ih =>
    have hskip : extract (x :: b) = extract b := by rw [extract, resync_of_mismatch h, extract]
    have hdropped := ih hn (s := { s with rxBuf := b }) rfl hs
    rw [extractTimes_succ] at hdropped ⊢
    rwa [hb, hskip]
  | @take b rest r i is h _ ih =>
    rw [extractTimes_succ, hb, extract_of_ok h]
    cases n with
    | zero => cases hn
    | succ n => simp [ih (Nat.le_of_succ_le_succ hn), ← hs]

/-! ### An arrival -/

/-- The state in which arrival agent `id` extracts: its notification taken, `RXLOCK` held, `PORTLOCK` free again, and
`PORT_IN` moved behind `RXBUF` (R51, R132). -/
def arrived (id : Nat) (s : State) : State :=
  { s with
    arrivals := s.arrivals - 1
    rxLock := some (.arrival id)
    portLock := none
    portIn := []
    rxBuf := s.rxBuf ++ s.portIn }

theorem rxArrive_of_extractTimes {id : Nat} {s t : State} (hs : BetweenSteps s) (hopen : s.portOpen = true)
    (hpending : 0 < s.arrivals) (ht : extractTimes (extractions (arrived id s)) (arrived id s) = .next t) :
    rxArrive id {} s = some (.next { t with rxLock := none, ret := some .ok }) := by
  obtain ⟨hrx, hport, -⟩ := hs
  rw [rxArrive_eq hrx hport hopen hpending]
  exact congrArg some (serveArrival_of_extract rfl rfl rfl ht)

/-- An arrival in which `decode_fault` fires, as long as it may fire: the extractions drawn come first, and what they
leave in `RXBUF` and `FR` is cleared (R138). -/
theorem rxArrive_of_decodeFault {id : Nat} {d : DecodeDraw} {s t : State} (hs : BetweenSteps s)
    (hopen : s.portOpen = true) (hpending : 0 < s.arrivals) (hmay : s.params.decodeFault = true)
    (ht : extractTimes (min d.pushed (extractions (arrived id s))) (arrived id s) = .next t) :
    rxArrive id { decodeFault := some d } s = some (.next { t with
      rxBuf := [], fr := none, log := t.log ++ [.decodeError d.info], rxLock := none, ret := some .ok }) := by
  obtain ⟨hrx, hport, -⟩ := hs
  have hheld : t.rxLock = some (.arrival id) := by
    obtain ⟨hframe, -⟩ := extractTimes_frame ht
    rw [hframe]
    rfl
  rw [rxArrive_eq hrx hport hopen hpending]
  simp only [arrived] at ht
  simp [serveArrival, rawRead, appendExtract, release, holder, setHolder, append, hmay, ht, absorbDecodeError,
    logEvent, returnOk, hheld]

/-- Settles O30: the run of one extraction. -/
theorem arrivalDeliversAtMostOneFrame : Obligations.ArrivalDeliversAtMostOneFrame := by
  intro id s hs hopen hpending honce
  have ⟨hrx, hport, hstage⟩ := hs
  have hone := extractTimes_one (s := arrived id s) hstage
  rw [← extractions_of_once (s := arrived id s) honce] at hone
  rw [runAction, rxArrive_of_extractTimes hs hopen hpending hone]
  simp [arrived, hrx, hport]

/-- Settles O31: there are more extractions than bytes, so more than frames, and the run reads the stream to its end. -/
theorem arrivalUntilNoneDeliversTheStream : Obligations.ArrivalUntilNoneDeliversTheStream := by
  intro id s hs hopen hpending huntil
  obtain ⟨is, r, hparses, hlen, -⟩ := extractTimes_pushes (arrived id s)
  have ⟨hrx, hport, hstage⟩ := hs
  have hall := extractTimes_of_parses hparses hlen rfl hstage
  rw [← extractions_of_untilNone (s := arrived id s) huntil] at hall
  refine ⟨is, r, hparses, hparses.length_le, ?_⟩
  rw [runAction, rxArrive_of_extractTimes hs hopen hpending hall]
  simp [arrived, hrx, hport]

theorem acquire_params {l : Lock} {a : Agent} {s t : State} (h : acquire l a s = some t) : t.params = s.params := by
  obtain ⟨-, rfl⟩ := acquire_eq_some.1 h
  cases l <;> rfl

/-- An arrival looks at its draw of `decode_fault` where the oracle may fire (D13). -/
theorem serveArrival_of_noDecodeFault (a : Agent) (draw : ArriveDraw) {s : State}
    (hoff : s.params.decodeFault = false) :
    serveArrival a draw s = serveArrival a { draw with decodeFault := none } s := by
  simp [serveArrival, rawRead, appendExtract, hoff]

/-- Settles O35: what the drawn run pushed stays, and what it left in `RXBUF` and `FR` is cleared; where the oracle may
not fire no arrival looks at its draw. -/
theorem decodeErrorIsAbsorbed : Obligations.DecodeErrorIsAbsorbed := by
  constructor
  · intro id d s hs hopen hpending hmay
    have ⟨hrx, hport, hstage⟩ := hs
    obtain ⟨is, r, hparses, hlen, hpushes⟩ := extractTimes_pushes (arrived id s)
    obtain ⟨t, ht⟩ := extractTimes_next (min d.pushed (extractions (arrived id s))) (arrived id s)
    obtain ⟨hframe, -, -, hstages, -⟩ := extractTimes_frame ht
    have hreceive : t.stage = s.stage := by
      rcases hstages with e | e
      · exact e
      · rw [e, hstage]
    refine ⟨is, r, hparses, ?_⟩
    rw [runAction, rxArrive_of_decodeFault hs hopen hpending hmay ht, hframe, hreceive, hpushes _ t ht]
    cases he : s.params.extracts with
    | once =>
      rw [extractions_of_once (s := arrived id s) he]
      simp [arrived, hrx, hport]
    | untilNone =>
      have hcovers : is.length ≤ extractions (arrived id s) := by
        rw [extractions_of_untilNone (s := arrived id s) he]
        omega
      rw [← List.take_take, List.take_of_length_le hcovers]
      simp [arrived, hrx, hport]
  · intro id draw s hoff
    simp only [runAction, rxArrive]
    split
    · rfl
    split
    · rfl
    refine Option.bind_congr fun s₁ hrx => Option.map_congr fun s₂ hport => ?_
    have htaken := acquire_params hrx
    have hparams : s₂.params = s.params := (acquire_params hport).trans htaken
    exact serveArrival_of_noDecodeFault (.arrival id) draw (hparams ▸ hoff)

end Machine
end Sys2Proof
end

section
/-! Command dispatch (spec/43_command_dispatch.md): what a popped frame does in each of the three cases of R166, the
step that pops or sends a frame, and the registration table. The handler of a frame is found by its code and payload
alone, so a frame readdressed to another destination has the same one. -/

namespace Sys2Proof

/-! ### Readdressing -/

/-- The same command to another destination. -/
def Instr.withDest (d : Byte) : Instr → Instr
  | .ack _ sender => .ack d sender
  | .nack _ sender => .nack d sender
  | .set _ sender analog digit difficulty status => .set d sender analog digit difficulty status
  | .get _ sender => .get d sender
  | .unknown code _ sender => .unknown code d sender

@[simp] theorem frame_withDest (d : Byte) (i : Instr) : (i.withDest d).frame = { i.frame with dest := d } := by
  cases i <;> rfl

@[simp] theorem wf_withDest (d : Byte) (i : Instr) : (i.withDest d).wf = i.wf := by
  cases i <;> rfl

/-- A well-formed instruction is determined by its record (R14, R82). -/
theorem frame_injective {i j : Instr} (hi : i.wf) (hj : j.wf) (h : i.frame = j.frame) : i = j :=
  Option.some.inj ((frame_instr? i hi).symm.trans (h ▸ frame_instr? j hj))

/-- Records that differ in the destination alone are those of one command and its readdressing. -/
theorem eq_withDest_of_frame {i j : Instr} {d : Byte} (hi : i.wf) (hj : j.wf)
    (h : j.frame = { i.frame with dest := d }) : j = i.withDest d :=
  frame_injective hj ((wf_withDest d i).trans hi) (h.trans (frame_withDest d i).symm)

namespace Machine

/-- Settles O16: `exec` on receive. -/
theorem receivedFrameIsDelivered : Obligations.ReceivedFrameIsDelivered := fun _ _ => exec_on_receive

/-! ### A frame on dispatch: filtered, unrouted, routed (R166, R169, R170) -/

theorem exec_on_dispatch {i : Instr} {s : State} (hi : i.wf) (hs : s.stage = .dispatch) :
    exec i s = .next (routeFrame i.frame (handlerOf i s) s) := by
  rw [exec_of_wf hi, runFrame, hs]

theorem filteredOut_iff (f : Frame) (s : State) :
    filteredOut f s = true ↔ s.params.destFilter = true ∧ f.dest ≠ 0x80 := by
  simp [filteredOut, Config.masterAddr]

theorem filteredOut_eq_false_iff (f : Frame) (s : State) :
    filteredOut f s = false ↔ (s.params.destFilter = true → f.dest = 0x80) := by
  simp [filteredOut, Config.masterAddr]

theorem routeFrame_of_filtered {f : Frame} {s : State} (h : filteredOut f s = true)
    (handler : Controller → Controller) : routeFrame f handler s = { s with stage := .receive, ret := some .ok } := by
  simp [routeFrame, h, returnOk]

theorem routeFrame_of_unrouted {f : Frame} {s : State} (h : filteredOut f s = false)
    (hm : mapGet s.ctrlMap f.sender = none) (handler : Controller → Controller) :
    routeFrame f handler s =
      { s with stage := .receive, ret := some .ok, log := s.log ++ [.unrouted f] } := by
  simp [routeFrame, h, hm, returnOk, logEvent]

theorem routeFrame_of_routed {f : Frame} {s : State} (h : filteredOut f s = false)
    (hm : (mapGet s.ctrlMap f.sender).isSome) (handler : Controller → Controller) :
    routeFrame f handler s =
      { s with stage := .receive, ret := some .ok, ctrlMap := mapModify s.ctrlMap f.sender handler } := by
  obtain ⟨c, hc⟩ := Option.isSome_iff_exists.1 hm
  simp [routeFrame, h, hc, returnOk]

/-- The handler is found by the kind of a frame and given its payload: the destination plays no part (R166). -/
@[simp] theorem handlerOf_withDest (d : Byte) (i : Instr) (s : State) : handlerOf (i.withDest d) s = handlerOf i s := by
  cases i <;> rfl

/-- Settles O22: with the filter off both frames are routed to the handler of their sender, which is the same one for
both; with it on the frame goes no further than the filter. -/
theorem destinationIsTestedOnlyByTheFilter : Obligations.DestinationIsTestedOnlyByTheFilter := by
  constructor
  · intro i j s hi hj hs hoff hframe hsome
    have hpass (f : Frame) : filteredOut f s = false := by simp [filteredOut_eq_false_iff, hoff]
    have hreaddressed : j = i.withDest j.frame.dest := eq_withDest_of_frame hi hj hframe
    have hsender : j.frame.sender = i.frame.sender := by rw [hframe]
    have hhandler : handlerOf j s = handlerOf i s := by rw [hreaddressed, handlerOf_withDest]
    rw [exec_on_dispatch hi hs, exec_on_dispatch hj hs, routeFrame_of_routed (hpass _) hsome,
      routeFrame_of_routed (hpass _) (hsender ▸ hsome), hsender, hhandler]
  · intro i s hi hs hon hdest
    rw [exec_on_dispatch hi hs, routeFrame_of_filtered ((filteredOut_iff _ _).2 ⟨hon, hdest⟩)]

/-! ### The operations of the poll/dispatch agent -/

/-- Between two ticks the poll/dispatch agent's operation is the operation itself (R171, R198). -/
theorem onPollAgent_of_idle {s : State} (h : s.host.poll = .idle) (op : Option Out) :
    onPollAgent .poll s op = op := by
  simp [onPollAgent, h]

/-- `DISPATCH` of the record of a well-formed instruction at the front of `DELIVQ` (R166). -/
theorem dispatch_of_front {i : Instr} {q : List Frame} {s : State} (hi : i.wf) (hidle : s.host.poll = .idle)
    (hq : s.delivQ = i.frame :: q) :
    dispatch .poll s = some (exec i { s with delivQ := q, stage := .dispatch }) := by
  simp [dispatch, onPollAgent_of_idle hidle, hq, frame_instr? i hi]

/-- `SEND` of the record of a well-formed instruction, with `PORTLOCK` free (R134). -/
theorem sendOp_of_free {i : Instr} (hi : i.wf) (caller : Agent) (timeout : Option Nat) {s : State}
    (hfree : s.portLock = none) :
    sendOp caller i.frame timeout s = some (exec i { s with stage := .send caller timeout }) := by
  simp [sendOp, frame_instr? i hi, hfree]

theorem attempt_of_not_faulted {s : State} (h : faulted s = false) (a : Action) : attempt a s = runAction a s := by
  simp [attempt, h]

/-- The first operation of the agenda, where it has a step in a block that is not faulted, is the step. -/
theorem step_of_runAction {s : State} {a : Action} {rest : List Action} {o : Out} (hagenda : s.agenda = a :: rest)
    (hfault : faulted s = false) (ho : runAction a { s with agenda := rest } = some o) : step s = o := by
  have hsame : faulted { s with agenda := rest } = false := hfault
  exact step_of_head hagenda ((attempt_of_not_faulted hsame a).trans ho)

/-- Settles O52: both operations find the instruction of their record and hand it to `exec`. -/
theorem stepRunsTheDispatchedOrSentFrame : Obligations.StepRunsTheDispatchedOrSentFrame := by
  constructor
  · intro s rest i q hi hagenda hfault hidle hq
    have hpop := dispatch_of_front (s := { s with agenda := rest }) hi hidle hq
    exact step_of_runAction hagenda hfault hpop
  · intro s rest i caller timeout hi hagenda hfault hidle hfree
    have hsend := sendOp_of_free hi caller timeout (s := { s with agenda := rest }) hfree
    have hmay : ¬ (caller = .poll ∧ s.host.poll ≠ .idle) := fun ⟨hc, hne⟩ => hne (hidle hc)
    exact step_of_runAction hagenda hfault ((if_neg hmay).trans hsend)

/-! ### The registration table -/

theorem isReserved_iff (a : Byte) : isReserved a = true ↔ a = 0x80 ∨ a = 0xF0 := by
  simp [isReserved, Config.masterAddr, Config.bcastAddr]

theorem isReserved_eq_false_iff (a : Byte) : isReserved a = false ↔ a ≠ 0x80 ∧ a ≠ 0xF0 := by
  simp [isReserved, Config.masterAddr, Config.bcastAddr]

/-- `CTRL_MAP` in its form has no controller at a reserved address (R167). -/
theorem mapGet_of_reserved {m : List (Byte × Controller)} (hm : CtrlMapOk m) {a : Byte} (ha : isReserved a = true) :
    mapGet m a = none := by
  rw [mapGet_none_iff]
  intro hmem
  obtain ⟨e, he, rfl⟩ := List.mem_map.1 hmem
  obtain ⟨hres, -⟩ := hm.2 e he
  simp [ha] at hres

/-- Settles O21: the second of the three cases of a popped frame, at its own meaning and at the `DISPATCH` that pops
it; a table in form holds no reserved address. -/
theorem unroutedFrameIsLogged : Obligations.UnroutedFrameIsLogged := by
  refine ⟨fun i s hi hs hpass hnone => ?_, fun f q s hf hs hidle hq hpass hnone => ?_, fun m hm => ?_⟩
  · rw [exec_on_dispatch hi hs, routeFrame_of_unrouted ((filteredOut_eq_false_iff _ _).2 hpass) hnone]
  · obtain ⟨i, hi⟩ := Option.isSome_iff_exists.1 ((instr?_isSome_iff f).2 hf)
    obtain ⟨rfl, hwf⟩ := instr?_some hi
    obtain ⟨-, -, hstage⟩ := hs
    have hpopped := routeFrame_of_unrouted (s := { s with delivQ := q, stage := .dispatch })
      ((filteredOut_eq_false_iff _ _).2 hpass) hnone
    rw [runAction, dispatch_of_front hwf hidle hq, exec_on_dispatch hwf rfl, hpopped, ← hstage]
  · exact ⟨mapGet_of_reserved hm (by decide), mapGet_of_reserved hm (by decide)⟩

/-- `REGISTER` of a reserved address is refused (R167, R215 d). -/
theorem registerUnit_of_reserved {a : Byte} {s : State} (hidle : s.host.poll = .idle) (ha : isReserved a = true) :
    registerUnit .poll a s = some (.refused .reservedAddress) := by
  rw [registerUnit, onPollAgent_of_idle hidle, if_pos ha]

/-- `REGISTER` of a present address raises `DuplicateAddress` (R167, R214). -/
theorem registerUnit_of_present {a : Byte} {s : State} (hidle : s.host.poll = .idle) (ha : isReserved a = false)
    (hpresent : mapGet s.ctrlMap a ≠ none) :
    registerUnit .poll a s = some (.next (raise (.duplicateAddress a) s)) := by
  obtain ⟨c, hc⟩ := Option.ne_none_iff_exists'.1 hpresent
  simp [registerUnit, onPollAgent_of_idle hidle, ha, hc]

/-- `REGISTER` of an absent address appends a new controller (R167, R241). -/
theorem registerUnit_of_absent {a : Byte} {s : State} (hidle : s.host.poll = .idle) (ha : isReserved a = false)
    (hnew : mapGet s.ctrlMap a = none) :
    registerUnit .poll a s =
      some (.next { s with ctrlMap := s.ctrlMap ++ [(a, freshController s.params a)], ret := some .ok }) := by
  simp [registerUnit, onPollAgent_of_idle hidle, ha, hnew, returnOk]

/-- Settles O38: the tests of `REGISTER` in their order, each with its outcome. -/
theorem registerAppendsOrFaults : Obligations.RegisterAppendsOrFaults := by
  intro a s hidle
  refine ⟨fun hres => ?_, fun hmaster hbcast hnew => ?_, fun hmaster hbcast hpresent => ?_⟩
  · exact registerUnit_of_reserved hidle ((isReserved_iff a).2 hres)
  · exact registerUnit_of_absent hidle ((isReserved_eq_false_iff a).2 ⟨hmaster, hbcast⟩) hnew
  · exact ⟨raise (.duplicateAddress a) s,
      registerUnit_of_present hidle ((isReserved_eq_false_iff a).2 ⟨hmaster, hbcast⟩) hpresent, rfl,
      fun r => mem_insertFault (.duplicateAddress a) r s.faults⟩

/-- Settles O39: the table operation behind `UNREGISTER` is the filter, and what it reads is said by its laws. -/
theorem unregisterRemovesOneEntry : Obligations.UnregisterRemovesOneEntry := by
  intro a s hidle
  refine ⟨mapErase s.ctrlMap a, onPollAgent_of_idle hidle _, ?_, ?_, fun b hb => ?_,
    mapErase_of_not_mem s.ctrlMap a⟩
  · exact List.filter_congr fun e _ => by simp [bne, beq_eq_decide]
  · rw [mapGet_mapErase, if_pos rfl]
  · rw [mapGet_mapErase, if_neg hb]

end Machine
end Sys2Proof
end

section
/-! The host's environment (spec/44_host_environment.md): what a routed frame does to the controller of its sender, the
deferred work test by test, the ohm conversions through one characterisation of the code, the store with its flush
worker, and the two steps of a poll tick. -/

namespace Sys2Proof
namespace Machine

/-! ### A frame routed to the controller of its sender (R183 to R186) -/

theorem mapGet_mapModify_self {α : Type} {m : List (Byte × α)} {k : Byte} {v : α} (h : mapGet m k = some v)
    (f : α → α) : mapGet (mapModify m k f) k = some (f v) := by
  rw [mapGet_mapModify, if_pos rfl, h, Option.map_some]

theorem mapGet_mapModify_of_ne {α : Type} (m : List (Byte × α)) {k a : Byte} (h : a ≠ k) (f : α → α) :
    mapGet (mapModify m k f) a = mapGet m a := by
  rw [mapGet_mapModify, if_neg h]

/-- A popped frame that is not filtered, of a registered sender: its handler is applied to the sender's controller
(R166). -/
theorem exec_of_routed {i : Instr} {s : State} (hi : i.wf) (hs : s.stage = .dispatch)
    (hpass : s.params.destFilter = true → i.frame.dest = 0x80) (hsome : (mapGet s.ctrlMap i.frame.sender).isSome) :
    exec i s = .next { s with
      ctrlMap := mapModify s.ctrlMap i.frame.sender (handlerOf i s), stage := .receive, ret := some .ok } := by
  rw [exec_on_dispatch hi hs, routeFrame_of_routed ((filteredOut_eq_false_iff _ _).2 hpass) hsome]

/-- A popped frame whose handler is a no-op changes no controller (R184, R186). -/
theorem exec_of_routed_noop {i : Instr} {s : State} (hi : i.wf) (hs : s.stage = .dispatch)
    (hpass : s.params.destFilter = true → i.frame.dest = 0x80) (hsome : (mapGet s.ctrlMap i.frame.sender).isSome)
    (hnoop : handlerOf i s = fun c => c) :
    exec i s = .next { s with stage := .receive, ret := some .ok } := by
  rw [exec_of_routed hi hs hpass hsome, hnoop, mapModify_id]

/-- Auto-restore eligibility, test by test (R188); 2550000 ohms is the resistance of code 0xFF. -/
theorem restoreEligible_iff (p : Config.Params) (digit : Byte) (ohms : Nat) :
    restoreEligible p digit ohms = true ↔
      p.autoRestore = true ∧ (if p.restoreInCodes then digit ≠ ohmToByte p ohms else byteToOhm digit ≠ ohms) ∧
        p.repairThreshold ≤ byteToOhm digit ∧ byteToOhm digit ≠ 2550000 := by
  have hmax : byteToOhm 0xFF = 2550000 := rfl
  have hdiffers : restoreDiffers p digit ohms = true ↔
      if p.restoreInCodes then digit ≠ ohmToByte p ohms else byteToOhm digit ≠ ohms := by
    unfold restoreDiffers
    split <;> exact bne_iff_ne
  simp only [restoreEligible, Bool.and_eq_true, hdiffers, decide_eq_true_eq, bne_iff_ne, hmax, and_assoc]

/-- Settles O18: the handler of an Ack is `onAck`, applied to the sender's controller alone. -/
theorem ackMarksControllerConnected : Obligations.AckMarksControllerConnected := by
  intro dest sender s c hs hpass hc
  have hrun := exec_of_routed (i := .ack dest sender) rfl hs hpass (Option.isSome_of_eq_some hc)
  exact ⟨_, hrun, mapModify_keys .., mapGet_mapModify_self hc _, fun a ha => mapGet_mapModify_of_ne _ ha _⟩

/-- Settles O19: the handler of a Set is `onSet`, whose one choice is the eligibility of R188. -/
theorem setUpdatesController : Obligations.SetUpdatesController := by
  intro dest sender analog digit difficulty status s c hs hpass hc
  have hrun := exec_of_routed (i := .set dest sender analog digit difficulty status) rfl hs hpass
    (Option.isSome_of_eq_some hc)
  refine ⟨_, hrun, mapModify_keys .., fun a ha => mapGet_mapModify_of_ne _ ha _, _, mapGet_mapModify_self hc _, ?_, ?_⟩
  · intro hon hdiffers hthreshold hmax
    exact if_pos ((restoreEligible_iff ..).2 ⟨hon, hdiffers, hthreshold, hmax⟩)
  · intro hnot
    exact if_neg fun heligible => hnot ((restoreEligible_iff ..).1 heligible)

/-- Settles O20: the handlers of the three are no-ops. -/
theorem nackGetUnknownChangeNoController : Obligations.NackGetUnknownChangeNoController := by
  intro dest sender s hs hpass hsome
  refine ⟨?_, ?_, fun code hcode => ?_⟩
  · exact exec_of_routed_noop (i := .nack dest sender) rfl hs hpass hsome rfl
  · exact exec_of_routed_noop (i := .get dest sender) rfl hs hpass hsome rfl
  · exact exec_of_routed_noop (i := .unknown code dest sender) hcode hs hpass hsome rfl

/-! ### What is read of a controller (R182, R192, R193) -/

theorem dirty_iff (c : Controller) :
    dirty c = true ↔
      c.needsFreshTarget = true ∨ c.jumperBreak ≠ none ∨ c.resistorBreak = true ∨ c.pendingAutoRestore ≠ none := by
  simp [dirty, or_assoc, Option.isSome_iff_ne_none]

theorem dirty_eq_false_iff (c : Controller) :
    dirty c = false ↔
      c.needsFreshTarget = false ∧ c.jumperBreak = none ∧ c.resistorBreak = false ∧ c.pendingAutoRestore = none := by
  simp [← Bool.not_eq_true, dirty_iff]

/-- Settles O45: the four tests of `dirty`. -/
theorem dirtyIffSomethingPends : Obligations.DirtyIffSomethingPends := dirty_iff

theorem online_of_never_connected {c : Controller} (now : Nat) (h : c.everConnected = false) :
    online now c = false := by
  simp [online, h]

/-- The three ranges of the time since the last acknowledgment (R182, R222); at the limit the answer is free. -/
theorem online_of_connected {c : Controller} {t : Nat} (now : Nat) (h : c.everConnected = true)
    (ht : c.lastUpdated = some t) :
    online now c =
      if now - t < 2000000000 then true
      else if now - t = 2000000000 then Config.onlineAtThreshold c.address now else false := by
  rw [online, h, ht]
  rfl

theorem consumption_of_status {c : Controller} {pl : Payload} (now : Nat) (h : c.lastStatus = some pl) :
    consumption now c =
      if online now c = true ∧ pl.status.getLsbD 5 = false ∧ pl.status.getLsbD 6 = false then c.requiredOhms
      else 0 := by
  simp [consumption, h, resistorOk, jumpersOk, and_assoc]

/-- Settles O48: below the limit, above it, and the two status bits. -/
theorem onlineAndConsumption : Obligations.OnlineAndConsumption := by
  intro now t c
  refine ⟨online_of_never_connected now, fun hc ht hlt => ?_, fun hc ht hgt => ?_, fun hnone => ?_,
    fun pl => consumption_of_status now⟩
  · rw [online_of_connected now hc ht, if_pos hlt]
  · rw [online_of_connected now hc ht, if_neg (by omega), if_neg (by omega)]
  · simp [consumption, hnone]

/-! ### Byte and ohm (R191) -/

theorem ohmCode_lt (x : Nat) : 256 * x / (x + 10000) < 256 :=
  Nat.div_lt_of_lt_mul (by omega)

theorem toNat_ohmToByteTrunc (x : Nat) : (ohmToByteTrunc x).toNat = 256 * x / (x + 10000) := by
  rw [ohmToByteTrunc, BitVec.toNat_ofNat]
  exact Nat.mod_eq_of_lt (ohmCode_lt x)

/-- The code of `x` is at least `n` exactly when `x` is at least the exact resistance `10000 n / (256 - n)` of code
`n`: all that is said of the two conversions follows from this. -/
theorem le_ohmToByteTrunc_iff {n : Nat} (hn : n ≤ 256) (x : Nat) :
    n ≤ (ohmToByteTrunc x).toNat ↔ 10000 * n ≤ x * (256 - n) := by
  obtain ⟨k, hk⟩ := Nat.exists_eq_add_of_le hn
  have hsplit : 256 * x = n * x + x * k := by rw [hk, Nat.add_mul, Nat.mul_comm k]
  rw [toNat_ohmToByteTrunc, Nat.le_div_iff_mul_le (by omega), Nat.mul_add, hsplit, show 256 - n = k by omega]
  omega

theorem ohmToByteTrunc_mono {x y : Nat} (h : x ≤ y) : (ohmToByteTrunc x).toNat ≤ (ohmToByteTrunc y).toNat := by
  have hn : (ohmToByteTrunc x).toNat ≤ 256 := (ohmToByteTrunc x).isLt.le
  rw [le_ohmToByteTrunc_iff hn]
  calc 10000 * (ohmToByteTrunc x).toNat ≤ x * (256 - (ohmToByteTrunc x).toNat) :=
        (le_ohmToByteTrunc_iff hn x).1 le_rfl
    _ ≤ y * (256 - (ohmToByteTrunc x).toNat) := Nat.mul_le_mul_right _ h

theorem byteToOhm_mono {b c : Byte} (h : b.toNat ≤ c.toNat) : byteToOhm b ≤ byteToOhm c :=
  Nat.div_le_div (Nat.mul_le_mul_left _ h) (Nat.sub_le_sub_left h 256) (Nat.sub_ne_zero_of_lt c.isLt)

theorem byteToOhm_ohmToByteTrunc_le (x : Nat) : byteToOhm (ohmToByteTrunc x) ≤ x := by
  refine Nat.div_le_of_le_mul ?_
  rw [Nat.mul_comm _ x]
  exact (le_ohmToByteTrunc_iff (ohmToByteTrunc x).isLt.le x).1 le_rfl

/-- A resistance lies below the exact one of the code after its own. -/
theorem lt_next_ohmCode (x : Nat) :
    x * (255 - (ohmToByteTrunc x).toNat) < 10000 * ((ohmToByteTrunc x).toNat + 1) := by
  have hnext := (le_ohmToByteTrunc_iff (n := (ohmToByteTrunc x).toNat + 1) (ohmToByteTrunc x).isLt x).not.1
    (Nat.not_succ_le_self _)
  rw [Nat.sub_add_eq, Nat.sub_right_comm] at hnext
  exact Nat.lt_of_not_le hnext

/-- Settles O47: the bound makes the code a byte, and the rest follows from the characterisation of the code. -/
theorem ohmConversionsAreMonotonic : Obligations.OhmConversionsAreMonotonic :=
  ⟨ohmCode_lt, fun _ _ => ohmToByteTrunc_mono, fun _ _ => byteToOhm_mono, byteToOhm_ohmToByteTrunc_le,
    lt_next_ohmCode⟩

/-! ### The generators (R189, R190) -/

theorem jumperAccepted_iff (b : Byte) : jumperAccepted b = true ↔ 3 ≤ popcount b ∧ popcount b ≤ 5 := by
  simp [jumperAccepted]

theorem generateJumper_some {d : List Byte} {b : Byte} (h : generateJumper d = some b) :
    b ∈ d ∧ 3 ≤ popcount b ∧ popcount b ≤ 5 :=
  ⟨List.mem_of_find?_eq_some h, (jumperAccepted_iff b).1 (List.find?_some h)⟩

theorem resistorAccepted_iff (current ohms : Nat) :
    (Config.nominalOhms.contains ohms && ohms != current) = true ↔ ohms ∈ Config.nominalOhms ∧ ohms ≠ current := by
  simp

theorem generateResistor_some {current : Nat} {d : List Nat} {ohms : Nat}
    (h : generateResistor current d = some ohms) : ohms ∈ d ∧ ohms ∈ Config.nominalOhms ∧ ohms ≠ current := by
  have haccepted := List.find?_some h
  exact ⟨List.mem_of_find?_eq_some h, (resistorAccepted_iff current ohms).1 haccepted⟩

/-- Settles O46: both generators are the search for the first acceptable draw; the count is by evaluation. -/
theorem generatorsAnswerAcceptedDraws : Obligations.GeneratorsAnswerAcceptedDraws := by
  refine ⟨fun d b => generateJumper_some, fun d ⟨b, hb, hok⟩ => ?_, fun cur d ohms => generateResistor_some,
    fun cur d ⟨ohms, hmem, hok⟩ => ?_, by decide +kernel⟩
  · exact List.find?_isSome.2 ⟨b, hb, (jumperAccepted_iff b).2 hok⟩
  · exact List.find?_isSome.2 ⟨ohms, hmem, (resistorAccepted_iff cur ohms).2 hok⟩

/-! ### The deferred work, test by test (R187) -/

/-- `o` and `j` are the required resistance and the jumper target after the reload of the persisted target: as before
without a request, or where the real collaborator has none; else those of the stored or synthesized target (R196). -/
def Reloaded (p : Config.Params) (h : HostSide) (c : Controller) (o : Nat) (j : Byte) : Prop :=
  (c.needsFreshTarget = false → o = c.requiredOhms ∧ j = c.jumperTarget) ∧
  (c.needsFreshTarget = true →
    (∀ t, mapGet h.store c.address = some t → o = byteToOhm t.resistorByte ∧ j = t.jumperByte) ∧
    (mapGet h.store c.address = none → p.noopPersistence = false → o = c.requiredOhms ∧ j = c.jumperTarget) ∧
    (mapGet h.store c.address = none → p.noopPersistence = true →
      o = byteToOhm 0x00 ∧ 3 ≤ popcount j ∧ popcount j ≤ 5))

/-- What `UnitStore.get` answers, in its three cases (R194, R196). -/
theorem storeGet_some {p : Config.Params} {h : HostSide} {a : Byte} {draw : List Byte} {r : Option UnitTarget}
    (hr : storeGet p h a draw = some r) :
    (∃ t, mapGet h.store a = some t ∧ r = some t) ∨
      (mapGet h.store a = none ∧ p.noopPersistence = false ∧ r = none) ∨
      (mapGet h.store a = none ∧ p.noopPersistence = true ∧
        ∃ b, generateJumper draw = some b ∧ r = some ⟨a, 0x00, b⟩) := by
  unfold storeGet at hr
  split at hr
  · exact .inl ⟨_, ‹_›, (Option.some.inj hr).symm⟩
  · rename_i hnone
    split at hr
    case isTrue hnoop =>
      obtain ⟨b, hb, rfl⟩ := Option.map_eq_some_iff.1 hr
      exact .inr (.inr ⟨hnone, hnoop, b, hb, rfl⟩)
    case isFalse hreal =>
      exact .inr (.inl ⟨hnone, Bool.eq_false_of_not_eq_true hreal, (Option.some.inj hr).symm⟩)

theorem applyFreshTarget_some {p : Config.Params} {h : HostSide} {draw : PollDraw} {c c' : Controller}
    (hc : applyFreshTarget p h draw c = some c') :
    ∃ o j, c' = { c with needsFreshTarget := false, requiredOhms := o, jumperTarget := j } ∧ Reloaded p h c o j := by
  unfold applyFreshTarget at hc
  split at hc
  case isTrue hfresh =>
    obtain ⟨r, hr, rfl⟩ := Option.map_eq_some_iff.1 hc
    rcases storeGet_some hr with ⟨t, ht, rfl⟩ | ⟨hnone, hreal, rfl⟩ | ⟨hnone, hnoop, b, hb, rfl⟩
    · exact ⟨_, _, rfl, by simp [Reloaded, hfresh, ht]⟩
    · exact ⟨_, _, rfl, by simp [Reloaded, hfresh, hnone, hreal]⟩
    · obtain ⟨-, hbits⟩ := generateJumper_some hb
      exact ⟨_, _, rfl, by simp [Reloaded, hfresh, hnone, hnoop, hbits]⟩
  case isFalse hfresh =>
    obtain rfl := Option.some.inj hc
    rw [Bool.not_eq_true] at hfresh
    exact ⟨_, _, by rw [← hfresh], by simp [Reloaded, hfresh]⟩

/-- The jumper break acts on the jumper target alone: kept, the explicit byte, or a drawn pattern (R187, R189). -/
theorem applyJumperBreak_some {draw : PollDraw} {c c' : Controller} (hc : applyJumperBreak draw c = some c') :
    ∃ j, c' = { c with jumperBreak := none, jumperTarget := j } ∧
      (c.jumperBreak = none → j = c.jumperTarget) ∧ (∀ b, c.jumperBreak = some (some b) → j = b) ∧
      (c.jumperBreak = some none → 3 ≤ popcount j ∧ popcount j ≤ 5) := by
  unfold applyJumperBreak at hc
  split at hc
  · rename_i hbreak
    obtain rfl := Option.some.inj hc
    exact ⟨_, by rw [← hbreak], by simp [hbreak]⟩
  · rename_i b hbreak
    obtain rfl := Option.some.inj hc
    exact ⟨b, rfl, by simp [hbreak]⟩
  · rename_i hbreak
    obtain ⟨b, hb, rfl⟩ := Option.map_eq_some_iff.1 hc
    obtain ⟨-, hbits⟩ := generateJumper_some hb
    exact ⟨b, rfl, by simp [hbreak, hbits]⟩

/-- The resistor break acts on the required resistance alone: kept, or another nominal value (R187, R190). -/
theorem applyResistorBreak_some {draw : PollDraw} {c c' : Controller} (hc : applyResistorBreak draw c = some c') :
    ∃ o, c' = { c with resistorBreak := false, requiredOhms := o } ∧
      (c.resistorBreak = false → o = c.requiredOhms) ∧
      (c.resistorBreak = true → o ∈ Config.nominalOhms ∧ o ≠ c.requiredOhms) := by
  unfold applyResistorBreak at hc
  split at hc
  case isTrue hbreak =>
    obtain ⟨o, ho, rfl⟩ := Option.map_eq_some_iff.1 hc
    obtain ⟨-, hnominal⟩ := generateResistor_some ho
    exact ⟨o, rfl, by simp [hbreak], fun _ => hnominal⟩
  case isFalse hbreak =>
    obtain rfl := Option.some.inj hc
    rw [Bool.not_eq_true] at hbreak
    exact ⟨_, by rw [← hbreak], by simp [hbreak]⟩

theorem applyAutoRestore_eq (c : Controller) :
    applyAutoRestore c =
      { c with pendingAutoRestore := none, requiredOhms := c.pendingAutoRestore.getD c.requiredOhms } := by
  unfold applyAutoRestore
  split
  · rename_i ohms hpending
    simp [hpending]
  · rename_i hpending
    rw [hpending, Option.getD_none, ← hpending]

/-- A clean controller passes all four tests as it is. -/
theorem applyPending_of_clean {c : Controller} (hc : dirty c = false) (p : Config.Params) (h : HostSide)
    (draw : PollDraw) : applyPending p h draw c = some c := by
  obtain ⟨hfresh, hjumper, hresistor, hrestore⟩ := (dirty_eq_false_iff c).1 hc
  simp [applyPending, applyFreshTarget, applyJumperBreak, applyResistorBreak, applyAutoRestore, hfresh, hjumper,
    hresistor, hrestore]

/-- Settles O44: the four tests one after another, each with the item it clears and the one field it may set. -/
theorem pendingWorkClearsWhatItActsOn : Obligations.PendingWorkClearsWhatItActsOn := by
  intro p h draw c c' hc
  have hclean : dirty c = false → c' = c := fun hd =>
    Option.some.inj (hc.symm.trans (applyPending_of_clean hd p h draw))
  simp only [applyPending, Option.map_eq_some_iff, Option.bind_eq_some_iff] at hc
  obtain ⟨c₃, ⟨c₁, h₁, c₂, h₂, h₃⟩, rfl⟩ := hc
  obtain ⟨o, j, rfl, hreload⟩ := applyFreshTarget_some h₁
  obtain ⟨j', rfl, hkept, hexplicit, hdrawn⟩ := applyJumperBreak_some h₂
  obtain ⟨o', rfl, hsame, hnominal⟩ := applyResistorBreak_some h₃
  rw [applyAutoRestore_eq] at hclean ⊢
  refine ⟨rfl, rfl, ⟨o, j, hreload.1, hreload.2, hkept, hexplicit, hdrawn, fun ohms hp => ?_, fun hp hb => ?_,
    fun hp hb => ?_⟩, hclean⟩
  · simp [hp]
  · simpa [hp] using hsame hb
  · simpa [hp] using hnominal hb

/-! ### The store and its flush worker (R194 to R196) -/

/-- Settles O49: `storeSet` field by field. -/
theorem storeSetIsVisibleAtOnce : Obligations.StoreSetIsVisibleAtOnce := by
  intro t s hidle
  refine ⟨storeSet t s.host, onPollAgent_of_idle hidle _, ?_, fun a ha => ?_, fun a => mem_addrInsert .., rfl, rfl, rfl,
    rfl, fun hnone => ?_, fun fl hfl => ⟨addrInsert fl.setAgain t.address, ?_, fun x => mem_addrInsert ..⟩⟩
  · rw [storeSet_store, mapGet_mapSet, if_pos rfl]
  · rw [storeSet_store, mapGet_mapSet, if_neg ha]
  · rw [storeSet_flush, hnone, Option.map_none]
  · rw [storeSet_flush, hfl, Option.map_some]

theorem flushStep_of_dirty {h : HostSide} (hnone : h.flush = none) (hd : h.dirty ≠ []) (p : Config.Params)
    (ok : Bool) : flushStep p ok h = some { h with flush := some ⟨h.dirty, []⟩ } := by
  simp [flushStep, hnone, hd]

theorem flushStep_of_clean {h : HostSide} (hnone : h.flush = none) (hd : h.dirty = []) (p : Config.Params)
    (ok : Bool) : flushStep p ok h = none := by
  simp [flushStep, hnone, hd]

/-- One save of a flush in progress: it succeeds or is logged, and the snapshot loses its first address either way. -/
theorem flushStep_of_todo {h : HostSide} {a : Byte} {rest again : List Byte}
    (hfl : h.flush = some ⟨a :: rest, again⟩) (p : Config.Params) (ok : Bool) :
    flushStep p ok h = some { h with
      saved := if ok = true then saveRow p h a else h.saved
      dirty := if ok = true ∧ a ∉ again then addrErase h.dirty a else h.dirty
      log := if ok = true then h.log else h.log ++ [.persistFailure a]
      flush := flushRest ⟨a :: rest, again⟩ rest } := by
  cases ok
  · simp [flushStep, hfl]
  · by_cases ha : a ∈ again <;> simp [flushStep, hfl, ha]

theorem flushRest_of_ne_nil {rest : List Byte} (h : rest ≠ []) (todo again : List Byte) :
    flushRest ⟨todo, again⟩ rest = some ⟨rest, again⟩ := by
  cases rest with
  | nil => exact absurd rfl h
  | cons b rest => rfl

theorem saveRow_of_noop {p : Config.Params} (h : HostSide) (a : Byte) (hp : p.noopPersistence = true) :
    saveRow p h a = h.saved := by
  simp [saveRow, hp]

theorem saveRow_of_stored {p : Config.Params} {h : HostSide} {a : Byte} {t : UnitTarget}
    (hp : p.noopPersistence = false) (ht : mapGet h.store a = some t) : saveRow p h a = mapSet h.saved a t := by
  simp [saveRow, hp, ht]

theorem runAction_flush {ok : Bool} {s : State} {h : HostSide} (hh : flushStep s.params ok s.host = some h) :
    runAction (.flush ok) s = some (.next { s with host := h }) := by
  rw [runAction, hh, Option.map_some]

/-- Settles O50: the snapshot, the idle worker, and one save. -/
theorem flushKeepsUnsavedAddressesDirty : Obligations.FlushKeepsUnsavedAddressesDirty := by
  intro ok s
  refine ⟨fun hnone hd => runAction_flush (flushStep_of_dirty hnone hd s.params ok), fun hnone hd => ?_,
    fun a rest again hfl => ?_⟩
  · rw [runAction, flushStep_of_clean hnone hd, Option.map_none]
  refine ⟨_, runAction_flush (flushStep_of_todo hfl s.params ok), rfl, rfl, rfl, fun x => ?_, rfl, ?_,
    fun hne => flushRest_of_ne_nil hne _ _, fun hkeep => ?_, fun hok hreal t ht => ?_⟩
  · by_cases hleaves : ok = true ∧ a ∉ again
    · simp [hleaves, mem_addrErase]
    · simp [hleaves]
  · rintro rfl
    rfl
  · rcases hkeep with rfl | hnoop
    · rfl
    · simp [saveRow_of_noop s.host a hnoop]
  · simp only [hok, if_true, saveRow_of_stored hreal ht, mapGet_mapSet]
    exact ⟨trivial, fun b hb => if_neg hb⟩

/-! ### A poll tick (R187, R198) -/

theorem pollStep_of_broadcast {draw : PollDraw} {s : State} (hfree : s.portLock = none)
    (hlast : s.host.poll = .broadcast ∨ firstDirty s.ctrlMap = none) :
    pollStep .poll draw s = some (pollBroadcast draw.write s) := by
  cases hpoll : s.host.poll with
  | broadcast => simp [pollStep, hfree, hpoll]
  | idle =>
    have hclean : firstDirty s.ctrlMap = none := hlast.resolve_left (by simp [hpoll])
    simp [pollStep, hfree, hpoll, hclean]

theorem pollStep_of_dirty {draw : PollDraw} {s : State} {a : Byte} {c c' : Controller} (hfree : s.portLock = none)
    (hidle : s.host.poll = .idle) (hfirst : firstDirty s.ctrlMap = some (a, c))
    (hc : applyPending s.params s.host draw c = some c') :
    pollStep .poll draw s = some (sendTarget a c c' draw.write s) := by
  simp [pollStep, hfree, hidle, hfirst, hc]

/-- The bytes of the broadcast Get (R81). -/
theorem encode_broadcastGet :
    encode (.get Config.bcastAddr Config.masterAddr) = [0xF0, 0x80, 0x04, 0x1B, 0x6F] := by decide +kernel

/-- Settles O41: the step is a send of the broadcast Get into an empty port. -/
theorem pollEndsWithTheBroadcastGet : Obligations.PollEndsWithTheBroadcastGet := by
  intro draw s hopen hfree hempty hwrite hlast
  have ⟨hsent, _⟩ := sendWritesTheWholeFrame (.get Config.bcastAddr Config.masterAddr) .poll
    (setPoll .idle { s with stage := .send .poll none }) rfl rfl rfl hopen hfree hempty
  rw [runAction, pollStep_of_broadcast hfree hlast, hwrite, pollBroadcast, hsent, encode_broadcastGet]
  rfl

/-- `performPendingWork` where its Set is written whole: the target is stored and the broadcast is next (R187). -/
theorem sendTarget_of_ready {s : State} (hopen : s.portOpen = true) (hfree : s.portLock = none)
    (hempty : s.portOut = []) (a : Byte) (old c : Controller) :
    sendTarget a old c none s = .next { s with
      ctrlMap := mapModify s.ctrlMap a (fun _ => c)
      portOut := encode (.set c.address Config.masterAddr c.jumperTarget (ohmToByte s.params c.requiredOhms)
        s.params.setDifficulty s.params.setStatus)
      host := { storeSet (targetOf s.params c) s.host with poll := .broadcast }
      stage := .receive
      ret := some .ok } := by
  have ⟨hsent, _⟩ := sendWritesTheWholeFrame
    (.set c.address Config.masterAddr c.jumperTarget (ohmToByte s.params c.requiredOhms) s.params.setDifficulty
      s.params.setStatus) .poll
    { s with ctrlMap := mapModify s.ctrlMap a (fun _ => c), stage := .send .poll none } rfl rfl rfl hopen hfree hempty
  rw [sendTarget, hsent]
  rfl

/-- Settles O42: the step is `performPendingWork` of the first dirty controller, with its Set written whole. -/
theorem pollServicesTheFirstDirtyController : Obligations.PollServicesTheFirstDirtyController := by
  intro draw s a c c' hopen hfree hempty hwrite hidle hfirst hc
  rw [runAction, pollStep_of_dirty hfree hidle hfirst hc, hwrite, sendTarget_of_ready hopen hfree hempty]
  rfl

end Machine
end Sys2Proof
end

section
/-! Exceptions (spec/60_exceptions.md): the calls that are refused, the faults of a send and of an arrival, what a step
adds to `FAULT` and `LOG`, and the machine stopped by an `IoTimeout`. What a step adds is said once for each operation,
by a relation between the state before and the state after. -/

namespace Sys2Proof
namespace Machine

/-! ### A frame on send: refused, busy, timed out (R211, R212, R215) -/

theorem exec_on_send {i : Instr} {caller : Agent} {timeout : Option Nat} {s : State} (hi : i.wf)
    (hs : s.stage = .send caller timeout) : exec i s = sendFrame i caller timeout s := by
  rw [exec_of_wf hi, runFrame, hs]

theorem sendFrame_of_otherSender {i : Instr} (h : i.frame.sender ≠ 0x80) (caller : Agent) (timeout : Option Nat)
    (s : State) : sendFrame i caller timeout s = .refused .senderNotMaster :=
  if_pos h

theorem sendFrame_of_closed {i : Instr} {s : State} (hi : i.frame.sender = 0x80) (ho : s.portOpen = false)
    (caller : Agent) (timeout : Option Nat) : sendFrame i caller timeout s = .refused .portClosed :=
  (if_neg (not_not_intro hi)).trans (if_pos ho)

/-- A send that finds `PORT_OUT` not empty does nothing but raise its fault, whatever the draw (R211). -/
theorem sendFrame_of_busy {i : Instr} {s : State} (hi : i.frame.sender = 0x80) (ho : s.portOpen = true)
    (hp : s.portLock = none) (hbusy : s.portOut ≠ []) (caller : Agent) (timeout : Option Nat) :
    sendFrame i caller timeout s = .next (raise (.writeWhileBusy i.frame) { s with stage := .receive }) := by
  rw [sendFrame_of_ready i caller timeout hi ho hp, if_pos ((txBusy_iff s).2 hbusy)]
  rfl

/-- A write timeout leaves the drawn part of the frame in an empty `PORT_OUT` and raises its fault (R212, U4). -/
theorem sendFrame_of_timeout {i : Instr} {s : State} (hi : i.frame.sender = 0x80) (ho : s.portOpen = true)
    (hp : s.portLock = none) (hempty : s.portOut = []) (caller : Agent) (k : Nat) :
    sendFrame i caller (some k) s =
      .next (raise (.ioTimeout .atWrite) { s with stage := .receive, portOut := (encode i).take k }) := by
  have hidle : ¬ txBusy s = true := fun h => (txBusy_iff s).1 h hempty
  rw [sendFrame_of_ready i caller (some k) hi ho hp, if_neg hidle]
  rfl

/-- The block is faulted once an `IoTimeout` has been raised (R212). -/
theorem faulted_raise_ioTimeout (site : IoWhere) (s : State) : faulted (raise (.ioTimeout site) s) = true :=
  (faulted_iff _).2 ⟨site, (mem_insertFault _ _ _).2 (.inl rfl)⟩

/-- Settles O24: the state after differs from the state before in `FAULT`, the stage and the result, and with
`PORT_OUT` emptied it is ready for the next send. -/
theorem busySendFaultsAndWritesNothing : Obligations.BusySendFaultsAndWritesNothing := by
  intro i caller timeout s hwf hsender hstage hopen hfree hbusy
  refine ⟨raise (.writeWhileBusy i.frame) { s with stage := .receive }, ?_, rfl, fun r => mem_insertFault _ r _,
    fun j hj hmaster => ?_⟩
  · rw [exec_on_send hwf hstage, sendFrame_of_busy hsender hopen hfree hbusy]
  · have ⟨hsent, _⟩ := sendWritesTheWholeFrame j caller
      { raise (.writeWhileBusy i.frame) s with portOut := [], stage := .send caller none }
      hj hmaster rfl hopen hfree rfl
    exact hsent

/-- Settles O25: `PORT_OUT` holds the first `k` bytes of the encoding, which has the wire length. -/
theorem writeTimeoutLeavesAPrefix : Obligations.WriteTimeoutLeavesAPrefix := by
  intro i caller k s hwf hsender hstage hopen hfree hempty
  refine ⟨raise (.ioTimeout .atWrite) { s with stage := .receive, portOut := (encode i).take k }, ?_,
    List.take_prefix k _, ?_, fun r => mem_insertFault _ r _, faulted_raise_ioTimeout _ _, rfl⟩
  · rw [exec_on_send hwf hstage, sendFrame_of_timeout hsender hopen hfree hempty]
  · rw [raise_portOut, List.length_take, encode_length i hwf]

theorem instr?_of_not_wf {f : Frame} (h : f.wf = false) : f.instr? = none := by
  rw [← Option.not_isSome_iff_eq_none, instr?_isSome_iff, h]
  exact Bool.false_ne_true

theorem sendOp_of_not_wf {f : Frame} (h : f.wf = false) (caller : Agent) (timeout : Option Nat) (s : State) :
    sendOp caller f timeout s = some (.refused .illFormedFrame) := by
  rw [sendOp, instr?_of_not_wf h]

/-- Settles O26: the three tests of a send in their order (log 24). -/
theorem forbiddenSendsAreRefused : Obligations.ForbiddenSendsAreRefused := by
  refine ⟨fun f caller timeout s hf hidle => ?_, fun i caller timeout s hwf hstage hsender => ?_,
    fun i caller timeout s hwf hstage hsender hclosed => ?_⟩
  · have hmay : ¬ (caller = .poll ∧ s.host.poll ≠ .idle) := fun ⟨hc, hne⟩ => hne (hidle hc)
    exact (if_neg hmay).trans (sendOp_of_not_wf hf caller timeout s)
  · rw [exec_on_send hwf hstage, sendFrame_of_otherSender hsender]
  · rw [exec_on_send hwf hstage, sendFrame_of_closed hsender hclosed]

/-- Settles O17: `exec` tests the form first, and a frame is taken from `RXBUF` by a drop of its wire length. -/
theorem illFormedOrTooLongIsRefused : Obligations.IllFormedOrTooLongIsRefused := by
  refine ⟨fun i s hi => exec_of_not_wf hi s, fun i s hi hs hshort => ?_⟩
  rw [exec_of_wf hi, runFrame, hs]
  rcases receiveFrame_cases i s with ⟨hlong, -⟩ | ⟨-, hrefused⟩
  · exact absurd hshort (Nat.not_lt_of_le hlong)
  · exact hrefused

/-! ### An arrival: refused, waiting, served, timed out (R50, R133, R215, R217) -/

theorem rxArrive_of_closed {s : State} (h : s.portOpen = false) (id : Nat) (draw : ArriveDraw) :
    rxArrive id draw s = some (.refused .portClosed) :=
  if_pos h

theorem acquire_eq_none {l : Lock} {a : Agent} {s : State} : acquire l a s = none ↔ holder l s ≠ none := by
  unfold acquire
  cases holder l s <;> simp

/-- An arrival waits for its notification, for `RXLOCK` and for `PORTLOCK` (R25, R50). -/
theorem rxArrive_waits {s : State} (ho : s.portOpen = true)
    (h : s.arrivals = 0 ∨ s.rxLock ≠ none ∨ s.portLock ≠ none) (id : Nat) (draw : ArriveDraw) :
    rxArrive id draw s = none := by
  rw [rxArrive, if_neg (by simp [ho])]
  split
  · rfl
  rename_i hpending
  rw [Option.bind_eq_none_iff]
  intro s₁ hs₁
  obtain ⟨hrx, rfl⟩ := acquire_eq_some.1 hs₁
  have hheld : s.portLock ≠ none := (h.resolve_left hpending).resolve_left (not_not_intro hrx)
  rw [Option.map_eq_none_iff, acquire_eq_none]
  exact hheld

/-- Settles O32: the tests of `RX_ARRIVE` in their order (log 24). -/
theorem arrivalIsRefusedOrWaits : Obligations.ArrivalIsRefusedOrWaits := fun id draw _ =>
  ⟨fun hclosed => rxArrive_of_closed hclosed id draw, fun hopen hwait => rxArrive_waits hopen hwait id draw⟩

/-- From free arbiters, with a notification pending, an arrival answers a next state whatever its draws, takes that one
notification and frees both arbiters (R53, R132). -/
theorem rxArrive_serves {s : State} (hs : BetweenSteps s) (hopen : s.portOpen = true) (hpending : 0 < s.arrivals)
    (id : Nat) (draw : ArriveDraw) :
    ∃ t, rxArrive id draw s = some (.next t) ∧ t.arrivals + 1 = s.arrivals ∧ BetweenSteps t ∧
      t.agenda = s.agenda := by
  obtain ⟨hrx, hport, hstage⟩ := hs
  obtain ⟨t, ht, hform, hstages, -⟩ := serveArrival_next (.arrival id) draw
    (s := { s with arrivals := s.arrivals - 1, rxLock := some (.arrival id), portLock := some (.arrival id) }) rfl rfl
  have hreceive : t.stage = .receive := hstages.elim (fun e => e.trans hstage) fun e => e
  have harrivals : t.arrivals = s.arrivals - 1 := by rw [hform]
  refine ⟨t, ?_, by omega, ⟨?_, ?_, hreceive⟩, ?_⟩
  · rw [rxArrive_eq hrx hport hopen hpending, ht]
  all_goals rw [hform]

/-- Settles O33: the arrival is first on the agenda and has a step. -/
theorem pendingArrivalIsServed : Obligations.PendingArrivalIsServed := by
  intro id draw rest s hs hopen hpending hfault hagenda
  obtain ⟨t, ht, hrest⟩ := rxArrive_serves (s := { s with agenda := rest }) hs hopen hpending id draw
  exact ⟨t, step_of_runAction hagenda hfault ht, hrest⟩

/-- A read timeout ends an arrival that holds both arbiters before anything is read: it frees them and raises its fault
(R133, R212). -/
theorem serveArrival_of_readTimeout {a : Agent} {draw : ArriveDraw} {s : State} (hd : draw.readTimeout = true)
    (hr : s.rxLock = some a) (hp : s.portLock = some a) :
    serveArrival a draw s = .next (raise (.ioTimeout .atRead) { s with rxLock := none, portLock := none }) := by
  simp [serveArrival, hd, release, holder, setHolder, hr, hp]

/-- Settles O34: the arbiters, free before, are free after, and the arrival has touched no buffer. -/
theorem readTimeoutKeepsTheBuffers : Obligations.ReadTimeoutKeepsTheBuffers := by
  intro id draw s ⟨hrx, hport, _⟩ hopen hpending hd
  refine ⟨raise (.ioTimeout .atRead) { s with arrivals := s.arrivals - 1 }, ?_, rfl, fun r => mem_insertFault _ r _⟩
  rw [runAction, rxArrive_eq hrx hport hopen hpending, serveArrival_of_readTimeout hd rfl rfl]
  simp only [hrx, hport]

/-! ### The agent of a bus operation (R171, R215 e) -/

theorem onPollAgent_of_ne {caller : Agent} (h : caller ≠ .poll) (s : State) (op : Option Out) :
    onPollAgent caller s op = some (.refused .wrongAgent) :=
  if_pos h

/-- Settles O40: the agent is the first test of all four operations (log 24). -/
theorem busOperationsNeedThePollAgent : Obligations.BusOperationsNeedThePollAgent := fun _ _ _ s hne =>
  ⟨onPollAgent_of_ne hne s _, onPollAgent_of_ne hne s _, onPollAgent_of_ne hne s _, if_pos hne⟩

/-! ### What a step adds to `FAULT` and `LOG` (R24, R27, R227) -/

/-- The parameters are the same, and no record has left `FAULT` and no event `LOG`. -/
def RecordsKept (s t : State) : Prop := t.params = s.params ∧ s.faults <+: t.faults ∧ s.log <+: t.log

theorem RecordsKept.refl (s : State) : RecordsKept s s := ⟨rfl, List.prefix_refl _, List.prefix_refl _⟩

theorem recordsKept_raise (r : FaultRecord) (s : State) : RecordsKept s (raise r s) :=
  ⟨rfl, prefix_insertFault r s.faults, List.prefix_refl _⟩

theorem recordsKept_logEvent (e : Event) (s : State) : RecordsKept s (logEvent e s) :=
  ⟨rfl, List.prefix_refl _, List.prefix_append _ _⟩

theorem routeFrame_recordsKept (f : Frame) (handler : Controller → Controller) (s : State) :
    RecordsKept s (routeFrame f handler s) := by
  rcases routeFrame_cases f handler s with ⟨-, e⟩ | ⟨-, -, e⟩ | ⟨-, -, e⟩ <;> rw [e]
  · exact RecordsKept.refl s
  · exact recordsKept_logEvent (.unrouted f) s
  · exact RecordsKept.refl s

theorem SendResult.recordsKept {i : Instr} {timeout : Option Nat} {s t : State} (h : SendResult i timeout s t) :
    RecordsKept s t := by
  rcases h with ⟨-, rfl⟩ | ⟨-, -, rfl⟩ | ⟨-, -, k, -, rfl⟩ | ⟨-, -, -, rfl⟩
  · exact RecordsKept.refl t
  · exact recordsKept_raise (.writeWhileBusy i.frame) s
  · exact recordsKept_raise (.ioTimeout .atWrite) s
  · exact RecordsKept.refl s

theorem exec_recordsKept {i : Instr} {s t : State} (h : exec i s = .next t) : RecordsKept s t := by
  obtain ⟨-, ⟨-, -, rfl⟩ | ⟨-, rfl⟩ | ⟨caller, timeout, -, -, -, ht⟩⟩ := exec_next h
  · exact RecordsKept.refl s
  · exact routeFrame_recordsKept i.frame (handlerOf i s) s
  · exact ht.recordsKept

theorem rxArrive_recordsKept {id : Nat} {draw : ArriveDraw} {s t : State} (h : rxArrive id draw s = some (.next t)) :
    RecordsKept s t := by
  obtain ⟨-, -, -, -, hserve⟩ := rxArrive_next h
  obtain ⟨u, hu, hform, -, -, -, hlog, hfaults⟩ := serveArrival_next (.arrival id) draw
    (s := { s with arrivals := s.arrivals - 1, rxLock := some (.arrival id), portLock := some (.arrival id) }) rfl rfl
  obtain rfl : t = u := Host.Outcome.next.inj (hserve.symm.trans hu)
  refine ⟨by rw [hform], ?_, ?_⟩
  · rcases hfaults with e | e <;> rw [e]
    exact prefix_insertFault (.ioTimeout .atRead) s.faults
  · rcases hlog with e | ⟨info, e⟩ <;> rw [e]
    exact List.prefix_append s.log _

theorem openPort_recordsKept (timeout : Bool) (s : State) : RecordsKept s (openPort timeout s) := by
  cases timeout
  · exact RecordsKept.refl s
  · exact recordsKept_raise (.ioTimeout .atOpen) s

/-- A bus operation that is a plain update keeps the records where the update does. -/
theorem onPollAgent_recordsKept {caller : Agent} {s t u : State}
    (ht : onPollAgent caller s (some (.next u)) = some (.next t)) (hu : RecordsKept s u) : RecordsKept s t := by
  obtain ⟨-, -, ht⟩ := onPollAgent_next ht
  obtain rfl := Host.Outcome.next.inj (Option.some.inj ht)
  exact hu

theorem pollStep_recordsKept {caller : Agent} {draw : PollDraw} {s t : State}
    (h : pollStep caller draw s = some (.next t)) : RecordsKept s t := by
  obtain ⟨-, -, hget | ⟨a, c, c', u, -, -, -, hset, rfl⟩⟩ := pollStep_next h
  · have hsent := exec_recordsKept hget
    exact hsent
  · obtain ⟨hafter, -⟩ := afterSet_eq a c c' u
    have hsent := exec_recordsKept hset
    rw [hafter]
    exact hsent

/-- No operation but a reset takes a record out of `FAULT` or an event out of `LOG`. -/
theorem runAction_recordsKept {a : Action} {s t : State} (ha : a ≠ .reset) (h : runAction a s = some (.next t)) :
    RecordsKept s t := by
  cases a with
  | lineDeliver first others =>
    obtain rfl := Host.Outcome.next.inj (Option.some.inj h)
    exact RecordsKept.refl s
  | lineDrain k =>
    obtain ⟨u, hu, e⟩ := Option.map_eq_some_iff.1 h
    obtain rfl := Host.Outcome.next.inj e
    obtain ⟨-, rfl⟩ := lineDrain_eq_some.1 hu
    exact RecordsKept.refl s
  | rxArrive id draw => exact rxArrive_recordsKept h
  | send caller f timeout =>
    simp only [runAction] at h
    split at h
    · cases h
    · obtain ⟨i, -, -, he⟩ := sendOp_next h
      have hsent := exec_recordsKept he
      exact hsent
  | dispatch caller =>
    obtain ⟨f, q, i, -, -, he⟩ := dispatch_next h
    have hrouted := exec_recordsKept he
    exact hrouted
  | register caller a =>
    obtain ⟨-, rfl | ⟨-, rfl⟩⟩ := registerUnit_next h
    · exact recordsKept_raise (.duplicateAddress a) s
    · exact RecordsKept.refl s
  | unregister caller a => exact onPollAgent_recordsKept h (RecordsKept.refl s)
  | openPort timeout => exact onPollAgent_recordsKept h (openPort_recordsKept timeout s)
  | reset => exact absurd rfl ha
  | poll caller draw => exact pollStep_recordsKept h
  | request a r => exact onPollAgent_recordsKept (caller := .poll) h (RecordsKept.refl s)
  | storeSet target => exact onPollAgent_recordsKept h (RecordsKept.refl s)
  | loadAll => exact onPollAgent_recordsKept h (RecordsKept.refl s)
  | flush ok =>
    obtain ⟨x, -, e⟩ := Option.map_eq_some_iff.1 h
    obtain rfl := Host.Outcome.next.inj e
    exact RecordsKept.refl s
  | tick d =>
    obtain rfl := Host.Outcome.next.inj (Option.some.inj h)
    exact RecordsKept.refl s

/-- Settles O56: a step is one operation of the agenda, which keeps the records unless it is a reset, or idling; a reset
keeps the parameters. -/
theorem faultAndLogOnlyGrow : Obligations.FaultAndLogOnlyGrow := by
  intro s t ht
  rcases step_cases s with ⟨a, ha, g, hg, -⟩ | hidle
  · have hrun : runAction a { s with agenda := g } = some (.next t) := by rw [runAction_of_attempt hg, ht]
    by_cases hreset : a = .reset
    · subst hreset
      obtain rfl := Host.Outcome.next.inj (Option.some.inj hrun)
      exact ⟨rfl, fun hno => absurd ha hno⟩
    · obtain ⟨hparams, hgrow⟩ := runAction_recordsKept hreset hrun
      exact ⟨hparams, fun _ => hgrow⟩
  · obtain rfl := idleStep_next (hidle.symm.trans ht)
    obtain ⟨hparams, hgrow⟩ := RecordsKept.refl t
    exact ⟨hparams, fun _ => hgrow⟩

/-! ### Stopped by an `IoTimeout` (R212, R220) -/

theorem attempt_of_faulted {s : State} (h : faulted s = true) {a : Action} (ha : a ≠ .reset) :
    attempt a s = none := by
  simp [attempt, h, ha]

theorem attempt_reset (s : State) : attempt .reset s = some (.next (resetBlock s)) := by
  simp [attempt, runAction]

/-- In a faulted block an operation that is no reset is passed over, waiting or not. -/
theorem pick_cons_of_faulted {s : State} (h : faulted s = true) {a : Action} (ha : a ≠ .reset) (kept : List Action)
    (waiting : List Agent) (rest : List Action) :
    ∃ waiting', pick s kept waiting (a :: rest) = pick s (kept ++ [a]) waiting' rest := by
  have hnone : attempt a { s with agenda := kept ++ rest } = none :=
    attempt_of_faulted (s := { s with agenda := kept ++ rest }) h ha
  rw [pick]
  split
  · exact ⟨waiting, rfl⟩
  · exact ⟨a.agent :: waiting, by rw [hnone]⟩

/-- A reset waits for nobody (R240). -/
theorem pick_cons_reset (s : State) (kept : List Action) (waiting : List Agent) (rest : List Action) :
    pick s kept waiting (.reset :: rest) = some (.next (resetBlock { s with agenda := kept ++ rest })) := by
  simp [pick, attempt_reset]

theorem pick_of_faulted_no_reset {s : State} (h : faulted s = true) {l : List Action} (hl : .reset ∉ l)
    (kept : List Action) (waiting : List Agent) : pick s kept waiting l = none := by
  induction l generalizing kept waiting with
  | nil => rfl
  | cons a rest ih =>
    obtain ⟨hne, hrest⟩ := not_or.1 (mt List.mem_cons.2 hl)
    obtain ⟨waiting', e⟩ := pick_cons_of_faulted h (Ne.symm hne) kept waiting rest
    rw [e]
    exact ih hrest _ _

theorem pick_of_faulted_reset {s : State} (h : faulted s = true) {l : List Action} (hl : .reset ∈ l)
    (kept : List Action) (waiting : List Agent) :
    ∃ g, pick s kept waiting l = some (.next (resetBlock { s with agenda := g })) := by
  induction l generalizing kept waiting with
  | nil => cases hl
  | cons a rest ih =>
    by_cases ha : a = .reset
    · subst ha
      exact ⟨_, pick_cons_reset s kept waiting rest⟩
    · obtain ⟨waiting', e⟩ := pick_cons_of_faulted h ha kept waiting rest
      rw [e]
      exact ih ((List.mem_cons.1 hl).resolve_left (Ne.symm ha)) _ _

theorem faulted_resetBlock (s : State) : faulted (resetBlock s) = false := rfl

/-- Settles O57: the agenda is searched past every operation but a reset. -/
theorem timeoutStopsTheMachineUntilReset : Obligations.TimeoutStopsTheMachineUntilReset := by
  refine fun s h => ⟨fun hno => ?_, fun hreset => ?_⟩
  · rw [step, pick_of_faulted_no_reset h hno]
    exact if_pos h
  · obtain ⟨g, hg⟩ := pick_of_faulted_reset h hreset [] []
    exact ⟨g, by rw [step, hg], faulted_resetBlock _⟩

end Machine
end Sys2Proof
end

section
/-! Reset and hazards (spec/70_reset_and_hazards.md): the state after reset and the opening of the port, the host's
boot, the send of a poll tick that finds the port busy, and the bit errors that the trailer does not show. The boot is
a run of the machine: its first three steps from every state, then one step a registration. -/

namespace Sys2Proof

/-! ### Errors in the command byte or the sender and in the trailer (R261) -/

theorem trailerWord_xor (a b c d : Byte) :
    trailerWord (a ^^^ b) (c ^^^ d) = trailerWord a c ^^^ trailerWord b d := by
  simp only [trailerWord_eq_xor, BitVec.setWidth_xor, BitVec.shiftLeft_xor_distrib]
  ac_rfl

/-- Five bytes whose command byte is not a Set's are a frame exactly when the last two are the CRC of the first three
(R113). -/
theorem decode_header_isOk_iff {d n c l h : Byte} (hc : c ≠ Config.codeSet) :
    (∃ i, decode [d, n, c, l, h] = .ok (i, [])) ↔ crc16 [d, n, c] = trailerWord l h := by
  have hlen : flen (byteAt [d, n, c, l, h] 2) = 3 := flen_of_ne hc
  have hdecode : decode [d, n, c, l, h] =
      if crc16 [d, n, c] = trailerWord l h then .ok (instrOf [d, n, c], []) else .error .crcMismatch := by
    rw [decode_of_complete (by rw [hlen]; exact Nat.le_refl 5), hlen]
    rfl
  rw [hdecode]
  by_cases hcrc : crc16 [d, n, c] = trailerWord l h
  · exact iff_of_true ⟨_, if_pos hcrc⟩ hcrc
  · refine iff_of_false ?_ hcrc
    rintro ⟨i, hi⟩
    rw [if_neg hcrc] at hi
    cases hi

/-- The second and the third of three bytes stand in the CRC as they are (R102 d). -/
theorem crc16_xor_after_first (d n c p q : Byte) :
    crc16 [d, n ^^^ p, c ^^^ q] = crc16 [d, n, c] ^^^ trailerWord q p := by
  rw [crc16_three, crc16_three, trailerWord_xor, BitVec.xor_assoc]

/-- An error in the sender and the command byte is not detected where the trailer has the same error. -/
theorem decode_header_isOk_xor {d n c l h p q : Byte} (hc : c ≠ Config.codeSet) (hq : c ^^^ q ≠ Config.codeSet)
    (hok : ∃ i, decode [d, n, c, l, h] = .ok (i, [])) :
    ∃ i, decode [d, n ^^^ p, c ^^^ q, l ^^^ q, h ^^^ p] = .ok (i, []) := by
  rw [decode_header_isOk_iff hc] at hok
  rw [decode_header_isOk_iff hq, crc16_xor_after_first, hok, ← trailerWord_xor]

/-- Settles O14: one mask in each of the two pairs of bytes, the other pair unchanged. -/
theorem pairedBitErrorsPassTheCrc : Obligations.PairedBitErrorsPassTheCrc := by
  intro d n c l h m hc hflip hok
  constructor
  · simpa only [BitVec.xor_zero] using decode_header_isOk_xor (p := 0#8) (q := m) hc hflip hok
  · have hzero : c ^^^ 0#8 ≠ Config.codeSet := by rwa [BitVec.xor_zero]
    simpa only [BitVec.xor_zero] using decode_header_isOk_xor (p := m) (q := 0#8) hc hzero hok

namespace Machine

/-! ### The state after reset (R240) -/

/-- Settles O37: both states take the twelve registers from `State.reset`. -/
theorem resetValuesOfTheRegisters : Obligations.ResetValuesOfTheRegisters := by
  intro s t ht
  rcases List.mem_pair.1 ht with rfl | rfl <;>
    exact ⟨rfl, rfl, rfl, rfl, rfl, rfl, rfl, rfl, rfl, rfl, rfl, rfl⟩

theorem hostOk_reset : HostOk HostSide.reset :=
  ⟨⟨List.Pairwise.nil, List.forall_mem_nil _⟩, ⟨List.Pairwise.nil, List.forall_mem_nil _⟩, List.Pairwise.nil,
    List.forall_mem_nil _, by simp [HostSide.reset]⟩

theorem inv_reset : Inv State.reset where
  between := ⟨rfl, rfl, rfl⟩
  ctrlMap := ⟨List.nodup_nil, List.forall_mem_nil _⟩
  records := ⟨by simp [State.reset], List.forall_mem_nil _, List.forall_mem_nil _, List.forall_mem_nil _⟩
  faults := List.nodup_nil
  host := hostOk_reset

/-- Settles O54: every table, queue and buffer is empty. -/
theorem resetHasTheInvariant : Obligations.ResetHasTheInvariant := ⟨inv_reset, .inl rfl⟩

/-- A reset brings the block into its form from any state; the host has to be in form before. -/
theorem inv_resetBlock {s : State} (h : HostOk s.host) : Inv (resetBlock s) :=
  (inv_reset.setHost (x := { s.host with poll := .idle }) h).congr rfl

/-! ### Opening the port (R242) -/

theorem runAction_openPort {s : State} (hidle : s.host.poll = .idle) (timeout : Bool) :
    runAction (.openPort timeout) s = some (.next (openPort timeout s)) :=
  onPollAgent_of_idle hidle _

/-- Settles O36: the two branches of `OPEN_PORT`. -/
theorem openPortOpensOrTimesOut : Obligations.OpenPortOpensOrTimesOut := by
  intro s hidle
  refine ⟨runAction_openPort hidle false, raise (.ioTimeout .atOpen) s, runAction_openPort hidle true, rfl,
    fun r => ?_⟩
  exact mem_insertFault _ r s.faults

/-! ### A poll tick that finds the port busy (R250, U5, U6) -/

/-- The broadcast Get into a busy port: its fault, and the tick is over (R198). -/
theorem pollBroadcast_of_busy {s : State} (hopen : s.portOpen = true) (hfree : s.portLock = none)
    (hbusy : s.portOut ≠ []) (timeout : Option Nat) :
    pollBroadcast timeout s =
      .next (raise (.writeWhileBusy (Instr.get Config.bcastAddr Config.masterAddr).frame)
        (setPoll .idle { s with stage := .receive })) := by
  have hsent := sendFrame_of_busy (i := .get Config.bcastAddr Config.masterAddr)
    (s := setPoll .idle { s with stage := .send .poll timeout }) rfl hopen hfree hbusy .poll timeout
  rw [pollBroadcast, exec_on_send rfl rfl, hsent]
  rfl

/-- The Set of `performPendingWork` into a busy port: its fault, then what follows a failed Set (R187). -/
theorem sendTarget_of_busy {s : State} (hopen : s.portOpen = true) (hfree : s.portLock = none)
    (hbusy : s.portOut ≠ []) (a : Byte) (old c : Controller) (timeout : Option Nat) :
    sendTarget a old c timeout s =
      .next (afterFailedSet a old c (raise
        (.writeWhileBusy (Instr.set c.address Config.masterAddr c.jumperTarget (ohmToByte s.params c.requiredOhms)
          s.params.setDifficulty s.params.setStatus).frame)
        { s with ctrlMap := mapModify s.ctrlMap a (fun _ => c), stage := .receive })) := by
  have hsent := sendFrame_of_busy
    (i := .set c.address Config.masterAddr c.jumperTarget (ohmToByte s.params c.requiredOhms) s.params.setDifficulty
      s.params.setStatus)
    (s := { s with ctrlMap := mapModify s.ctrlMap a (fun _ => c), stage := .send .poll timeout })
    rfl hopen hfree hbusy .poll timeout
  rw [sendTarget, exec_on_send rfl rfl, hsent]
  rfl

/-- By the default parameters nothing follows a failed Set, and the tick is over (U5, U6). -/
theorem afterFailedSet_of_defaults {s : State} (hstore : s.params.storeOnFault = false)
    (hrestore : s.params.restoreOnFault = false) (hbroadcast : s.params.broadcastAfterFault = false)
    (hidle : s.host.poll = .idle) (a : Byte) (old c : Controller) : afterFailedSet a old c s = s := by
  simp only [afterFailedSet, hstore, hrestore, hbroadcast, Bool.false_eq_true, if_false, ← hidle]

/-- Settles O43: the two sends of a tick, each into a busy port. -/
theorem busySetEndsTheTick : Obligations.BusySetEndsTheTick := by
  refine ⟨fun draw s a c c' hopen hfree hbusy hidle hfirst hc hstore hrestore hbroadcast => ?_,
    fun draw s hopen hfree hbusy hlast => ?_⟩
  · refine ⟨raise _ { s with ctrlMap := mapModify s.ctrlMap a (fun _ => c'), stage := .receive }, _, ?_, rfl,
      fun r => mem_insertFault _ r s.faults, rfl⟩
    have hover (r : FaultRecord) := afterFailedSet_of_defaults
      (s := raise r { s with ctrlMap := mapModify s.ctrlMap a (fun _ => c'), stage := .receive })
      hstore hrestore hbroadcast hidle a c c'
    rw [runAction, pollStep_of_dirty hfree hidle hfirst hc, sendTarget_of_busy hopen hfree hbusy, hover]
    rfl
  · refine ⟨raise _ (setPoll .idle { s with stage := .receive }), ?_, fun r => mem_insertFault _ r s.faults, rfl⟩
    rw [runAction, pollStep_of_broadcast hfree hlast, pollBroadcast_of_busy hopen hfree hbusy]
    rfl

/-! ### The unit addresses (R3) -/

theorem nodup_eraseDups (l : List Byte) : l.eraseDups.Nodup := by
  induction hn : l.length using Nat.strong_induction_on generalizing l with
  | _ n ih =>
    cases l with
    | nil => exact List.nodup_nil
    | cons a l =>
      have hshorter : (l.filter fun b => !b == a).length < n := by
        rw [← hn, List.length_cons]
        exact Nat.lt_succ_of_le (List.length_filter_le _ l)
      rw [List.eraseDups_cons, List.nodup_cons]
      exact ⟨by simp, ih _ hshorter _ rfl⟩

theorem nodup_unitRange (p : Config.Params) : (unitRange p).Nodup := nodup_eraseDups _

theorem isReserved_of_mem_unitRange {p : Config.Params} {a : Byte} (h : a ∈ unitRange p) : isReserved a = false := by
  have hfiltered := List.mem_eraseDups.1 h
  simpa using (List.mem_filter.1 hfiltered).2

/-! ### The steps of the boot (R243) -/

theorem step_loadAll {s : State} {rest : List Action} (hagenda : s.agenda = .loadAll :: rest)
    (hfault : faulted s = false) (hidle : s.host.poll = .idle) :
    step s = .next { s with agenda := rest, host := loadAll s.params s.host } :=
  step_of_runAction hagenda hfault (onPollAgent_of_idle hidle _)

theorem step_reset {s : State} {rest : List Action} (hagenda : s.agenda = .reset :: rest) :
    step s = .next (resetBlock { s with agenda := rest }) :=
  step_of_head hagenda (attempt_reset _)

theorem step_openPort {s : State} {rest : List Action} (hagenda : s.agenda = .openPort false :: rest)
    (hfault : faulted s = false) (hidle : s.host.poll = .idle) :
    step s = .next { s with agenda := rest, portOpen := true, ret := some .ok } :=
  step_of_runAction hagenda hfault (onPollAgent_of_idle hidle _)

theorem step_register {s : State} {a : Byte} {rest : List Action} (hagenda : s.agenda = .register .poll a :: rest)
    (hfault : faulted s = false) (hidle : s.host.poll = .idle) (ha : isReserved a = false)
    (hnew : mapGet s.ctrlMap a = none) :
    step s = .next { s with
      agenda := rest, ctrlMap := s.ctrlMap ++ [(a, freshController s.params a)], ret := some .ok } :=
  step_of_runAction hagenda hfault (registerUnit_of_absent (s := { s with agenda := rest }) hidle ha hnew)

/-- The load waits where the block is faulted and within a poll tick (R171, R220). -/
theorem attempt_loadAll_waits {s : State} (h : ¬ (faulted s = false ∧ s.host.poll = .idle)) :
    attempt .loadAll s = none := by
  by_cases hfault : faulted s = true
  · exact attempt_of_faulted hfault (by decide)
  · have hrunning : faulted s = false := by simpa using hfault
    have hbusy : s.host.poll ≠ .idle := fun hidle => h ⟨hrunning, hidle⟩
    simp [attempt, hrunning, runAction, onPollAgent, hbusy]

/-- A reset behind an operation that waits comes first (log 38). -/
theorem step_reset_past {s : State} {a : Action} {rest : List Action} (hagenda : s.agenda = a :: .reset :: rest)
    (hwaits : attempt a { s with agenda := .reset :: rest } = none) :
    step s = .next (resetBlock { s with agenda := a :: rest }) := by
  simp [step, hagenda, pick, hwaits, attempt_reset]

/-! ### The boot as a run -/

/-- A run of one step more makes that step first. -/
theorem run_succ_next_iff {M : Host.Core} {k : Nat} {s t : M.State} :
    M.run (k + 1) s = .next t ↔ ∃ u, M.step s = .next u ∧ M.run k u = .next t := by
  rw [Host.Core.run]
  cases M.step s <;> simp

/-- In `k` steps the machine gets from `s` to `t`. -/
def Reaches (k : Nat) (s t : State) : Prop := Sys2Proof.core.run k s = .next t

theorem Reaches.refl (s : State) : Reaches 0 s s := rfl

theorem reaches_succ_iff {k : Nat} {s t : State} :
    Reaches (k + 1) s t ↔ ∃ u, step s = .next u ∧ Reaches k u t :=
  run_succ_next_iff

theorem Reaches.of_step {k : Nat} {s t u : State} (h : step s = .next u) (hu : Reaches k u t) :
    Reaches (k + 1) s t :=
  reaches_succ_iff.2 ⟨u, h, hu⟩

/-- A run of the machine keeps its invariant. -/
theorem Reaches.keeps_inv {k : Nat} {s t : State} (h : Reaches k s t) (hs : Inv s) : Inv t := by
  induction k generalizing s with
  | zero => exact Host.Outcome.next.inj h ▸ hs
  | succ k ih =>
    obtain ⟨u, hstep, hu⟩ := reaches_succ_iff.1 h
    exact ih hu (stepKeepsTheInvariant s u hs hstep)

/-- The state of the boot before its registrations: the block reset with its port open, the store loaded. -/
def portOpened (s : State) (rest : List Action) : State :=
  { resetBlock s with
    agenda := rest, portOpen := true, ret := some .ok, host := { loadAll s.params s.host with poll := .idle } }

theorem portOpened_inv {s : State} (h : HostOk s.host) (rest : List Action) : Inv (portOpened s rest) :=
  ((inv_resetBlock h).setHost (x := { loadAll s.params s.host with poll := .idle })
    (hostOk_loadAll h s.params)).congr rfl

/-- The first three steps of the boot, from every state. Where the load has a step it is the first of them; where it
waits the reset is, and the load follows (log 38). Both orders meet. -/
theorem reaches_of_portOpened {s t : State} {k : Nat} {rest : List Action}
    (h : Reaches k (portOpened s rest) t) :
    Reaches (k + 3) { s with agenda := .loadAll :: .reset :: .openPort false :: rest } t := by
  by_cases hmay : faulted s = false ∧ s.host.poll = .idle
  · obtain ⟨hfault, hidle⟩ := hmay
    exact .of_step (step_loadAll rfl hfault hidle) (.of_step (step_reset rfl) (.of_step (step_openPort rfl rfl rfl) h))
  · have hwaits := attempt_loadAll_waits (s := { s with agenda := .reset :: .openPort false :: rest }) hmay
    exact .of_step (step_reset_past rfl hwaits)
      (.of_step (step_loadAll rfl rfl rfl) (.of_step (step_openPort rfl rfl rfl) h))

/-- Registrations of new addresses append one new controller each, in their order, and change nothing else (R167). -/
theorem reaches_registers {l : List Byte} {s : State} (hagenda : s.agenda = l.map fun a => .register .poll a)
    (hfault : faulted s = false) (hidle : s.host.poll = .idle) (hret : s.ret = some .ok)
    (hres : ∀ a ∈ l, isReserved a = false) (hnew : (s.ctrlMap.map Prod.fst ++ l).Nodup) :
    Reaches l.length s { s with
      agenda := [], ctrlMap := s.ctrlMap ++ l.map fun a => (a, freshController s.params a) } := by
  induction l generalizing s with
  | nil =>
    rw [List.map_nil] at hagenda
    rw [List.map_nil, List.append_nil, ← hagenda]
    exact .refl s
  | cons a l ih =>
    obtain ⟨ha, hl⟩ := List.forall_mem_cons.1 hres
    have habsent : mapGet s.ctrlMap a = none := by
      obtain ⟨-, -, hdisjoint⟩ := List.nodup_append.1 hnew
      exact (mapGet_none_iff ..).2 fun hmem => hdisjoint a hmem a List.mem_cons_self rfl
    have hrest := ih (s := { s with
      agenda := l.map fun a => .register .poll a
      ctrlMap := s.ctrlMap ++ [(a, freshController s.params a)] }) rfl hfault hidle hret hl
      (by rwa [List.map_append, List.append_assoc])
    rw [List.append_assoc] at hrest
    exact .of_step (hret ▸ step_register hagenda hfault hidle ha habsent) hrest

/-- The state that the boot reaches. -/
def booted (s : State) : State :=
  { portOpened s [] with ctrlMap := (unitRange s.params).map fun a => (a, freshController s.params a) }

theorem reaches_booted_of_portOpened (s : State) :
    Reaches (unitRange s.params).length
      (portOpened s ((unitRange s.params).map fun a => .register .poll a)) (booted s) :=
  reaches_registers rfl rfl rfl rfl (fun _ => isReserved_of_mem_unitRange) (nodup_unitRange s.params)

theorem reaches_booted (s : State) :
    Reaches (bootAgenda s.params).length { s with agenda := bootAgenda s.params } (booted s) := by
  have hlength : (bootAgenda s.params).length = (unitRange s.params).length + 3 := by
    rw [bootAgenda, List.length_append, List.length_map, Nat.add_comm]
    rfl
  rw [hlength]
  exact reaches_of_portOpened (reaches_booted_of_portOpened s)

theorem booted_inv {s : State} (h : HostOk s.host) : Inv (booted s) :=
  (reaches_booted_of_portOpened s).keeps_inv (portOpened_inv h _)

/-- The new store holds the rows of the collaborator (R196). -/
theorem mapGet_booted_store (s : State) (a : Byte) :
    mapGet (booted s).host.store a = if s.params.noopPersistence then none else mapGet s.host.saved a := by
  have hstore : (booted s).host.store = if s.params.noopPersistence then [] else s.host.saved := rfl
  rw [hstore]
  split <;> rfl

/-- Settles O59: the boot is a run to `booted`, register by register the reset state but for the open port and the
registrations; in a running block between two poll ticks nothing waits, so its steps come in the agenda's order. -/
theorem bootRegistersEveryUnit : Obligations.BootRegistersEveryUnit := by
  refine fun s hhost => ⟨⟨booted s, reaches_booted s, ?_⟩, fun hfault hidle => ?_⟩
  · exact ⟨rfl, rfl, rfl, rfl, booted_inv hhost, rfl, rfl, rfl, rfl, rfl, rfl, rfl, rfl, mapGet_booted_store s, rfl⟩
  · exact ⟨_, _, _, (unitRange s.params).map fun a => .register .poll a, rfl, rfl, rfl, rfl,
      step_loadAll rfl hfault hidle, step_reset rfl, step_openPort rfl rfl rfl⟩

end Machine
end Sys2Proof
end
